-- ==== Sys2Proof/Word.lean ====
section
/-! DEFINITION. The bit vectors the spec treats as bits: an input byte (BYTEW, 8 bits), a sub-sum register (SUBW, 16
bits) and a working register (WORKW, 32 bits), all unsigned (00_scope.md rules R7, R8). -/

namespace Sys2Proof

/-- One byte, unsigned, bit 0 least significant (20_memory.md rule R41). -/
abbrev Byte := BitVec 8

/-- A 16-bit sub-sum (10_state.md rules R20, R21). -/
abbrev Half := BitVec 16

/-- A 32-bit working register, packet field or packed accumulator (10_state.md rules R22, R26, R27). -/
abbrev Word := BitVec 32

end Sys2Proof
end

