-- ==== Sys2Proof/Syntax.lean ====
section
/-! DEFINITION. The commands of the block, one constructor per row of spec/opcode_table.json (30_encoding.md rule R65). -/

namespace Sys2Proof

/-- A command (00_scope.md rule R10 reads "instruction" as "command"). The operands of UPDATE are the mathematical
integers its two packet fields denote (30_encoding.md rule R64, 92_eei_decisions.md D4); which integers a field can hold
is `Instr.wellFormed`. The buffer of an UPDATE is no packet field: the environment binds it (20_memory.md rule R40). -/
inductive Instr where
  | reset
  | update (offset length : Int)
  | finalize
deriving DecidableEq, Repr

end Sys2Proof
end

