-- ==== Sys2Proof/WellFormed.lean ====
section
/-! DEFINITION. Which commands have a packet: OFFSET and LENGTH are 32-bit two's complement fields (30_encoding.md rule
R64). No other operand restriction exists: the operand fields have no reserved values (rule R66). -/

namespace Sys2Proof

/-- `x` is in the range of a 32-bit two's complement field: -2^31 to 2^31 - 1 (30_encoding.md rule R64). -/
def fitsField (x : Int) : Bool := decide (-2147483648 ≤ x) && decide (x ≤ 2147483647)

/-- The command has a packet that encodes it. -/
def Instr.wellFormed : Instr → Bool
  | .reset => true
  | .update offset length => fitsField offset && fitsField length
  | .finalize => true

end Sys2Proof
end

