-- ==== Sys2Proof/Decode.lean ====
section
/-! DEFINITION. Command packets (30_encoding.md rules R61 to R67): the decoder, total on every byte string and rejecting
by name, then the encoder, then the opcode table's view of the decoder. -/

namespace Sys2Proof

/-- Why a byte string is no command packet. -/
inductive DecodeError where
  /-- Nothing at all: a packet has a header byte (rule R61). -/
  | emptyPacket
  /-- A header 0x03 to 0xFF: it has no behaviour and no length is defined (rules R66, R67). -/
  | reservedHeader (header : Byte)
  /-- Fewer bytes than the header's format has (rule R67; log entry 6). -/
  | truncatedPacket
  /-- More bytes than the header's format has (rule R67; log entry 6). -/
  | overlongPacket
deriving DecidableEq, Repr

/-- Header field `op`, bits [1:0] (rule R61). -/
def opField (header : Byte) : BitVec 2 := header.extractLsb' 0 2

/-- Header field `rsv`, bits [7:2], which must be zero (rule R61). -/
def rsvField (header : Byte) : BitVec 6 := header.extractLsb' 2 6

/-- Packet length in bytes, told from the header alone; none for a reserved header (rule R67). -/
def packetLength (header : Byte) : Option Nat :=
  if rsvField header ≠ 0 ∨ opField header = 3 then none
  else if opField header = 1 then some 9
  else some 1

/-- Four packet bytes as one field, least significant byte first (rule R63). -/
def fieldOfBytes (b0 b1 b2 b3 : Byte) : Word := b3 ++ b2 ++ b1 ++ b0

/-- The four packet bytes of a field, least significant byte first (rule R63). -/
def bytesOfField (x : Word) : List Byte :=
  [x.extractLsb' 0 8, x.extractLsb' 8 8, x.extractLsb' 16 8, x.extractLsb' 24 8]

/-- `int(x) = x[30:0] - 2^31 * x[31]` (rule R64). -/
def intOfField (x : Word) : Int :=
  ((x.extractLsb' 0 31).toNat : Int) - 2147483648 * ((x.extractLsb' 31 1).toNat : Int)

/-- The field whose `int` is `x`, for the integers a field can denote (rule R64). -/
def fieldOfInt (x : Int) : Word := BitVec.ofInt 32 x

/-- The command of a packet whose header has operation `op` and whose further bytes are `operands`, of the length
`packetLength` gives (rules R62, R63, R65). -/
def decodeBody (op : BitVec 2) (operands : List Byte) : Except DecodeError Instr :=
  if op = 0 then .ok .reset
  else if op = 2 then .ok .finalize
  else
    match operands with
    | [o0, o1, o2, o3, l0, l1, l2, l3] =>
      .ok (.update (intOfField (fieldOfBytes o0 o1 o2 o3)) (intOfField (fieldOfBytes l0 l1 l2 l3)))
    | _ => .error .truncatedPacket

/-- The decoder: one whole packet, byte 0 first, to its command (rules R61 to R67). -/
def decode (packet : List Byte) : Except DecodeError Instr :=
  match packet with
  | [] => .error .emptyPacket
  | header :: operands =>
    match packetLength header with
    | none => .error (.reservedHeader header)
    | some n =>
      if packet.length < n then .error .truncatedPacket
      else if n < packet.length then .error .overlongPacket
      else decodeBody (opField header) operands

/-- The header byte `rsv ‖ op` of a defined packet (rule R61). -/
def headerOf (op : BitVec 2) : Byte := (0 : BitVec 6) ++ op

/-- The encoder: the packet of a well-formed command (rules R62, R63, R65). -/
def encode : Instr → List Byte
  | .reset => [headerOf 0]
  | .update offset length =>
    headerOf 1 :: (bytesOfField (fieldOfInt offset) ++ bytesOfField (fieldOfInt length))
  | .finalize => [headerOf 2]

/-- Byte `k` of a packet read as one bit string: bits [8k+7:8k] (rule R61). -/
def tableByte (w k : Nat) : Byte := BitVec.ofNat 8 (w / 2 ^ (8 * k))

/-- The packet whose low `nbits` bits are those of `w` and whose further bits are zero, as long as its header says; a
reserved header stands alone (rules R61, R67). -/
def tablePacket (nbits w : Nat) : List Byte :=
  let bits := w % 2 ^ nbits
  (List.range ((packetLength (tableByte bits 0)).getD 1)).map (tableByte bits)

/-- The command the decoder reads from the opcode table's bits `w` of an instruction. -/
def decodeTableWord (nbits w : Nat) : Option Instr :=
  match decode (tablePacket nbits w) with
  | .ok i => some i
  | .error _ => none

end Sys2Proof
end

