-- ==== Sys2Proof/Config.lean ====
section
/-! DEFINITION. What this hardware fixes (00_scope.md rules R4 to R7) and the one family of values the spec leaves open. -/

namespace Sys2Proof.Config

/-- MODULUS, hardwired: the constant of every reduction (00_scope.md rule R5). -/
def modulus : Nat := 65521

/-- MAX_BLOCK, hardwired: the most bytes summed between two reductions (00_scope.md rule R6). -/
def maxBlock : Nat := 5552

/-- GROUP: bytes per unrolled group of the bulk path (00_scope.md rule R7). -/
def group : Nat := 16

/-- SHORT_LIMIT: the first length handled by the bulk path (00_scope.md rule R7). -/
def shortLimit : Nat := 16

/-- GROUPS_PER_BLOCK = MAX_BLOCK / GROUP (00_scope.md rule R7). -/
def groupsPerBlock : Nat := 347

/-- FREE VALUE (log entry 2): what a hidden register holds after a hardware-reset event, which leaves W1, W2, POS and
REM unspecified (70_reset_and_hazards.md rule R170). It has no body: nothing can be proved of a value of it. -/
opaque freeHidden : Nat → Word

end Sys2Proof.Config
end

