-- ==== Sys2Proof/Machine/State.lean ====
section
/-! DEFINITION. The machine's state as plain data: the block's registers (10_state.md), the bound buffer (20_memory.md) and
the host's channels (30_encoding.md rule R60); the reasons a step can stop; and the state right after hardware reset. -/

namespace Sys2Proof.Machine

/-- PHASE: 0 = Fresh, 1 = Accumulating (10_state.md rule R24). -/
inductive Phase where
  | fresh
  | accumulating
deriving DecidableEq, Repr

/-- The bytes of a buffer, as (index, byte) pairs in one canonical form: indices strictly rising, no pair equal to what
an unlisted index reads as. -/
abbrev Memory := List Host.Cell

/-- What an unlisted index of a buffer reads as. The environment supplies every byte of a buffer, so this is the notation
"zero bytes are not listed", not a value chosen for an unwritten byte (log entry 3). -/
def Memory.unlisted : Byte := 0

/-- The list is in canonical form. -/
abbrev Memory.wf (m : Memory) : Prop :=
  m.Pairwise (fun c d => c.1 < d.1) ∧ ∀ c ∈ m, c.2 ≠ Memory.unlisted

/-- BUF with its length BUFLEN, 0 to 2^31 - 1 (20_memory.md rule R40). -/
structure Buffer where
  len   : BitVec 31
  cells : Memory
deriving DecidableEq, Repr

/-- The bytes are in canonical form and lie at indices 0 to BUFLEN - 1, the only ones that exist (20_memory.md rule R49). -/
abbrev Buffer.wf (b : Buffer) : Prop :=
  Memory.wf b.cells ∧ ∀ c ∈ b.cells, c.1 < b.len.toNat

/-- A response record: status byte, then payload (30_encoding.md rule R68). -/
structure Response where
  status  : Byte
  payload : List Byte
deriving DecidableEq, Repr

/-- A command as the host presents it: its packet and, with an UPDATE, the buffer the environment binds (30_encoding.md
rule R60, 70_reset_and_hazards.md rule R179). RESET and FINALIZE have none (20_memory.md rule R40). -/
structure Presented where
  packet : List Byte
  buffer : Option Buffer
deriving DecidableEq, Repr

/-- What the host can do to the block (70_reset_and_hazards.md rule R179): present a command, or assert hardware reset,
alone or while a command is in progress, which is then abandoned without a response (rule R170). What it cuts off is never
decoded: that this holds of a byte string that is no command as well is a DESIGN CHOICE (log entry 10). -/
inductive HostEvent where
  | command (c : Presented)
  | hardwareReset (abandoned : Option Presented)
deriving DecidableEq, Repr

/-- The state. `s1`, `s2`, `phase` and the hidden `w1`, `w2`, `pos`, `rem` are the block's; `buf`, `inputs`, `responses` and
`reads` are its channels' other ends; `fresh` is the model's own counter of free values drawn (log entry 2). -/
structure State where
  /-- S1 (10_state.md rule R20). -/
  s1 : Half
  /-- S2 (10_state.md rule R21). -/
  s2 : Half
  /-- PHASE (10_state.md rule R24); no command returns it. -/
  phase : Phase
  /-- W1, head of the S1 pipeline, hidden (10_state.md rule R26). -/
  w1 : Word
  /-- W2, head of the S2 pipeline, hidden (10_state.md rule R26). -/
  w2 : Word
  /-- POS, index of the next byte to read, hidden (10_state.md rule R27). -/
  pos : Word
  /-- REM, bytes still to read, hidden (10_state.md rule R27). -/
  rem : Word
  /-- BUF with BUFLEN, bound while an UPDATE is in progress and only then (20_memory.md rule R40, 70_reset_and_hazards.md
  rule R174; log entry 3). -/
  buf : Option Buffer
  /-- The command channel: what the host presents, next first (30_encoding.md rule R60; log entry 5). -/
  inputs : List HostEvent
  /-- The response channel: records delivered, oldest first (30_encoding.md rules R60, R68). -/
  responses : List Response
  /-- The buffer read port: indices read by commands that ran to their response, oldest first; a transcript that no
  meaning reads (20_memory.md rule R48; log entry 7). -/
  reads : List Nat
  /-- The model's own: the next free value to draw (log entry 2). -/
  fresh : Nat
deriving DecidableEq, Repr

/-- Why a command stops the machine. -/
inductive Fault where
  /-- Raised by a byte read of BUF at an index at or above BUFLEN, which does not exist (20_memory.md rule R49). Safe:
  the guard of UPDATE keeps every command from it. -/
  | absentIndex (index : Nat)
deriving DecidableEq, Repr

/-- Why the machine has no step for what the host presents. Every one is safe: nothing is claimed of such a stream. -/
inductive Refusal where
  /-- Raised by exec's arm of an instruction that has no meaning yet; safe. -/
  | notModelled (mnemonic : String)
  /-- Raised by UPDATE when no buffer is bound: the environment supplies one with each UPDATE (30_encoding.md rule R60), and
  the spec describes no UPDATE without (log entry 6); safe. -/
  | noBuffer
  /-- Raised by `step` on a packet with a reserved header 0x03 to 0xFF (30_encoding.md rule R66); safe. -/
  | reservedHeader (header : Byte)
  /-- Raised by `step` on an empty byte string, which is no packet (30_encoding.md rule R61; log entry 6); safe. -/
  | emptyPacket
  /-- Raised by `step` on fewer bytes than the header's format has (30_encoding.md rule R67; log entry 6); safe. -/
  | truncatedPacket
  /-- Raised by `step` on more bytes than the header's format has (30_encoding.md rule R67; log entry 6); safe. -/
  | overlongPacket
deriving DecidableEq, Repr

/-- What a step or a command answers. -/
abbrev Result := Host.Outcome State Fault Refusal

/-- Right after hardware reset (10_state.md rule R32, 70_reset_and_hazards.md rule R170): S1 = 1, S2 = 0, PHASE = Fresh, no
command in progress and so no buffer bound, no response pending. The spec leaves W1, W2, POS and REM unspecified: zero is a
DESIGN CHOICE (log entry 1, unsafe), as is the counter's start (log entry 2). -/
def State.reset : State where
  s1 := 1
  s2 := 0
  phase := .fresh
  w1 := 0
  w2 := 0
  pos := 0
  rem := 0
  buf := none
  inputs := []
  responses := []
  reads := []
  fresh := 0

end Sys2Proof.Machine
end

