-- ==== Sys2Proof/Machine/Ops.lean ====
section
/-! DEFINITION. The named operations over registers, buffer and channels: sequencing, the read primitive, the response,
taking the one exception, hardware reset, and taking a presented command off the command channel. -/

namespace Sys2Proof.Machine

/-- `o`, then `k` from the state it leaves; a stop stays. -/
def andThen (o : Result) (k : State → Result) : Result :=
  match o with
  | .next s => k s
  | .fault r => .fault r
  | .refused r => .refused r

/-- `repeat n times: body` (00_scope.md rule R8). -/
def repeatOp : Nat → (State → Result) → State → Result
  | 0, _, s => .next s
  | n + 1, body, s => andThen (body s) (repeatOp n body)

/-- `while REM ≥ limit: body`, at most `fuel` times (00_scope.md rule R8: every loop has a bound). -/
def whileRem (limit : Nat) (body : State → Result) : Nat → State → Result
  | 0, s => .next s
  | fuel + 1, s => if limit ≤ s.rem.toNat then andThen (body s) (whileRem limit body fuel) else .next s

/-- The byte a buffer's list gives at an index. -/
def Memory.read : Memory → Nat → Byte
  | [], _ => Memory.unlisted
  | c :: m, i => if c.1 = i then c.2 else Memory.read m i

/-- `MemRead(BUF, i, 1)`: the byte at index `i`, for an index that exists (20_memory.md rules R42, R49). -/
def Buffer.read (b : Buffer) (i : Nat) : Option Byte :=
  if i < b.len.toNat then some (Memory.read b.cells i) else none

/-- The bytes BUF[start], ..., BUF[start + n - 1], in index order (42_update.md rule R111). -/
def Buffer.bytes (b : Buffer) (start n : Nat) : List Byte :=
  (List.range' start n).map (Memory.read b.cells)

/-- The canonical list of the bytes `bs` placed at `start` and up. -/
def cellsFrom : Nat → List Byte → Memory
  | _, [] => []
  | start, b :: bs =>
    if b = Memory.unlisted then cellsFrom (start + 1) bs else (start, b) :: cellsFrom (start + 1) bs

/-- The buffer that holds exactly the bytes `bs`, as `.buf` declares one (30_encoding.md rule R70); at most 2^31 - 1 of
them (20_memory.md rule R40). -/
def Buffer.ofBytes (bs : List Byte) : Buffer := ⟨BitVec.ofNat 31 bs.length, cellsFrom 0 bs⟩

/-- ACC = S2 ‖ S1, the packed view of the sub-sums (10_state.md rule R22). -/
def State.acc (s : State) : Word := s.s2 ++ s.s1

/-- Write S1 and S2. -/
def State.setSums (s : State) (s1 s2 : Half) : State := { s with s1 := s1, s2 := s2 }

/-- Write PHASE. -/
def State.setPhase (s : State) (p : Phase) : State := { s with phase := p }

/-- Write W1 and W2. -/
def State.setWork (s : State) (w1 w2 : Word) : State := { s with w1 := w1, w2 := w2 }

/-- Write POS and REM. -/
def State.setSeq (s : State) (pos rem : Word) : State := { s with pos := pos, rem := rem }

/-- Record one read of the buffer read port (log entry 7). -/
def State.noteRead (s : State) (index : Nat) : State := { s with reads := s.reads ++ [index] }

/-- `respond(status, bytes)`: deliver the response record of the current command (30_encoding.md rule R68). -/
def State.respond (s : State) (status : Byte) (payload : List Byte) : State :=
  { s with responses := s.responses ++ [⟨status, payload⟩] }

/-- Status OK (30_encoding.md rule R69). -/
def statusOk : Byte := 0x00

/-- Status OutOfRange (30_encoding.md rule R69, 60_exceptions.md rule R152). -/
def statusOutOfRange : Byte := 0x01

/-- Bind a buffer as BUF, or release it: it is bound while an UPDATE is in progress only (20_memory.md rule R40). -/
def State.bind (s : State) (b : Option Buffer) : State := { s with buf := b }

/-- BUF as the datapath reads it. With nothing bound no index exists. -/
def State.bound (s : State) : Buffer := s.buf.getD ⟨0, []⟩

/-- End of an UPDATE: its status is delivered and BUF is released, with no reference to it and no copy of it kept
(20_memory.md rule R40, 70_reset_and_hazards.md rule R174). -/
def State.endUpdate (s : State) (status : Byte) : State := (s.respond status []).bind none

/-- TAKING THE EXCEPTION OutOfRange: its response ends the UPDATE and nothing is written, saved or latched (60_exceptions.md
rules R153, R156). There is no return from it: the block is at a command boundary (rule R157). -/
def raiseOutOfRange (s : State) : State := s.endUpdate statusOutOfRange

/-- HARDWARE RESET (70_reset_and_hazards.md rule R170): the sums and PHASE take their reset values, the hidden registers
are unspecified (free values, log entry 2), no command is in progress and so no buffer bound, no response is delivered. -/
def hardwareReset (s : State) : State :=
  { s with
    s1 := 1, s2 := 0, phase := .fresh
    w1 := Config.freeHidden s.fresh, w2 := Config.freeHidden (s.fresh + 1)
    pos := Config.freeHidden (s.fresh + 2), rem := Config.freeHidden (s.fresh + 3)
    buf := none
    fresh := s.fresh + 4 }

/-- The channel moves on to `rest`. -/
def State.setInputs (s : State) (rest : List HostEvent) : State := { s with inputs := rest }

/-- BUF for a command that was presented with `supplied`: only UPDATE has one (20_memory.md rule R40). -/
def bindingFor (i : Instr) (supplied : Option Buffer) : Option Buffer :=
  match i with
  | .reset => none
  | .update _ _ => supplied
  | .finalize => none

/-- Accept a presented command `i`: it leaves the command channel, and an UPDATE's buffer is bound (30_encoding.md rule
R60). -/
def State.accept (s : State) (i : Instr) (c : Presented) (rest : List HostEvent) : State :=
  (s.setInputs rest).bind (bindingFor i c.buffer)

/-- The host presents `packet` next, with the empty buffer if it is an UPDATE (log entry 5). -/
def State.present (s : State) (packet : List Byte) : State :=
  let buffer := match decode packet with
    | .ok i => bindingFor i (some ⟨0, []⟩)
    | .error _ => none
  s.setInputs (.command ⟨packet, buffer⟩ :: s.inputs)

/-- The refusal of a byte string that is no packet. -/
def refusalOf : DecodeError → Refusal
  | .emptyPacket => .emptyPacket
  | .reservedHeader header => .reservedHeader header
  | .truncatedPacket => .truncatedPacket
  | .overlongPacket => .overlongPacket

end Sys2Proof.Machine
end

