-- ==== Sys2Proof/Machine/Finalize.lean ====
section
/-! DEFINITION. FINALIZE (43_finalize.md). -/

namespace Sys2Proof.Machine

/-- The four payload bytes: S1 low, S1 high, S2 low, S2 high (43_finalize.md rule R140). -/
def finalizePayload (s : State) : List Byte :=
  [s.s1.extractLsb' 0 8, s.s1.extractLsb' 8 8, s.s2.extractLsb' 0 8, s.s2.extractLsb' 8 8]

/-- FINALIZE: respond with the accumulator's bytes and write nothing (43_finalize.md rules R140, R142). -/
def execFinalize (s : State) : Result := .next (s.respond statusOk (finalizePayload s))

end Sys2Proof.Machine
end

