-- ==== Sys2Proof/Machine/Flags.lean ====
section
/-! DEFINITION. The one flag, PHASE (10_state.md rules R24, R35): what each command does to it. There is no condition code. -/

namespace Sys2Proof.Machine

/-- RESET and hardware reset return to Fresh (10_state.md rule R24). -/
def phaseAfterReset : Phase := .fresh

/-- A successful UPDATE of one byte or more leaves Accumulating, from either phase (42_update.md rule R120). -/
def phaseAfterBytes : Phase := .accumulating

end Sys2Proof.Machine
end

