-- ==== Sys2Proof/Machine/Reset.lean ====
section
/-! DEFINITION. RESET (41_reset.md). -/

namespace Sys2Proof.Machine

/-- RESET: S1 <- 1, S2 <- 0, PHASE <- Fresh, response OK; the hidden registers are not touched (41_reset.md rule R100). -/
def execReset (s : State) : Result :=
  .next (((s.setSums 1 0).setPhase phaseAfterReset).respond statusOk [])

end Sys2Proof.Machine
end

