-- ==== Sys2Proof/Machine/Operands.lean ====
section
/-! DEFINITION. The operand forms of UPDATE: the guard on OFFSET and LENGTH, and the unsigned values loaded into POS and REM. -/

namespace Sys2Proof.Machine

/-- The guard of UPDATE, over the mathematical integers with no wrap-around (42_update.md rule R112). -/
def guardOk (offset length : Int) (bufLen : Nat) : Bool :=
  decide (0 ≤ offset) && decide (0 ≤ length) && decide (offset + length ≤ bufLen)

/-- The unsigned value of an operand the guard has shown non-negative (30_encoding.md rule R64). -/
def unsignedOperand (x : Int) : Word := BitVec.ofInt 32 x

/-- Zero-extension of a sub-sum into a working register (40_datapath.md rule R90). -/
def zextSum (x : Half) : Word := x.setWidth 32

/-- Zero-extension of an input byte into the S1 pipeline, never sign-extension (20_memory.md rule R41). -/
def zextByte (b : Byte) : Word := b.setWidth 32

/-- The low half of a working register, `W[15:0]` (40_datapath.md rule R91). -/
def lowHalf (w : Word) : Half := w.extractLsb' 0 16

end Sys2Proof.Machine
end

