-- ==== Sys2Proof/Machine/Datapath.lean ====
section
/-! DEFINITION. The sum pipelines, the modular reduction unit and the six micro-operations (40_datapath.md). -/

namespace Sys2Proof.Machine

/-- S1 pipeline: `(W1 + zext_32(b)) mod 2^32` (40_datapath.md rule R80). -/
def pipe1 (w1 : Word) (b : Byte) : Word := w1 + zextByte b

/-- S2 pipeline: `(W2 + W1) mod 2^32`, with the W1 the current byte has been added to (40_datapath.md rule R81). -/
def pipe2 (w2 w1 : Word) : Word := w2 + w1

/-- CSUB: subtract MODULUS once if the value is at or above it (40_datapath.md rule R84). -/
def csub (v : Word) : Word := if Config.modulus ≤ v.toNat then v - BitVec.ofNat 32 Config.modulus else v

/-- MOD: the remainder by MODULUS (40_datapath.md rule R85). -/
def modulo (v : Word) : Word := BitVec.ofNat 32 (v.toNat % Config.modulus)

/-- LOADW (40_datapath.md rule R90). -/
def loadw (offset length : Int) (s : State) : State :=
  (s.setWork (zextSum s.s1) (zextSum s.s2)).setSeq (unsignedOperand offset) (unsignedOperand length)

/-- STOREW (40_datapath.md rule R91). -/
def storew (s : State) : State := s.setSums (lowHalf s.w1) (lowHalf s.w2)

/-- `POS <- POS + 1 ; REM <- REM - 1`, with the read of index POS recorded (40_datapath.md rule R82). -/
def State.advance (s : State) : State := (s.noteRead s.pos.toNat).setSeq (s.pos + 1) (s.rem - 1)

/-- Read the byte at index POS and hand it on; an index that does not exist is a fault (20_memory.md rules R42, R49). -/
def withByte (s : State) (k : Byte → Result) : Result :=
  match s.bound.read s.pos.toNat with
  | some b => k b
  | none => .fault (.absentIndex s.pos.toNat)

/-- STEP: one byte through both pipelines, no reduction (40_datapath.md rule R82). -/
def stepByte (s : State) : Result :=
  withByte s fun b => .next ((s.setWork (pipe1 s.w1 b) (pipe2 s.w2 (pipe1 s.w1 b))).advance)

/-- GROUP16: sixteen STEPs (40_datapath.md rule R83). -/
def group16 (s : State) : Result := repeatOp Config.group stepByte s

/-- `W1 <- MOD(W1) ; W2 <- MOD(W2)` (40_datapath.md rule R85). -/
def reduceBoth (s : State) : State := s.setWork (modulo s.w1) (modulo s.w2)

end Sys2Proof.Machine
end

