-- ==== Sys2Proof/Machine/Update.lean ====
section
/-! DEFINITION. UPDATE (42_update.md): the three paths and the command. -/

namespace Sys2Proof.Machine

/-- Single-byte path: add, CSUB, add the reduced W1, CSUB; it is not a STEP (42_update.md rule R116). -/
def singlePath (s : State) : Result :=
  withByte s fun b =>
    let w1 := csub (pipe1 s.w1 b)
    .next ((s.setWork w1 (csub (pipe2 s.w2 w1))).advance)

/-- Short path: all bytes by STEP, then CSUB on W1 and MOD on W2 (42_update.md rule R117). -/
def shortPath (s : State) : Result :=
  andThen (whileRem 1 stepByte s.rem.toNat s) fun t => .next (t.setWork (csub t.w1) (modulo t.w2))

/-- One full chunk: MAX_BLOCK bytes in groups of 16, then both sums reduced (42_update.md rule R118, 90_conflicts.md C1). -/
def chunk (s : State) : Result :=
  andThen (repeatOp Config.groupsPerBlock group16 s) fun t => .next (reduceBoth t)

/-- Bulk path: full chunks, then full groups, then leftover bytes, then both sums reduced (42_update.md rules R118, R119). -/
def bulkPath (s : State) : Result :=
  andThen (whileRem Config.maxBlock chunk s.rem.toNat s) fun t =>
    andThen (whileRem Config.group group16 t.rem.toNat t) fun u =>
      andThen (whileRem 1 stepByte u.rem.toNat u) fun v => .next (reduceBoth v)

/-- Path selection by LENGTH alone (42_update.md rule R115). -/
def pathFor (length : Int) (s : State) : Result :=
  if length = 1 then singlePath s
  else if length < Config.shortLimit then shortPath s
  else bulkPath s

/-- Exit: STOREW, PHASE <- Accumulating, response OK (42_update.md rules R120, R124). -/
def finishUpdate (s : State) : State := ((storew s).setPhase phaseAfterBytes).endUpdate statusOk

/-- UPDATE over the bound buffer: the guard, the zero-length case, then LOADW, one path and the exit (42_update.md rule
R110). With no buffer bound there is no UPDATE to perform (log entry 6). -/
def execUpdate (offset length : Int) (s : State) : Result :=
  match s.buf with
  | none => .refused .noBuffer
  | some b =>
    if guardOk offset length b.len.toNat then
      if length = 0 then .next (s.endUpdate statusOk)
      else andThen (pathFor length (loadw offset length s)) fun t => .next (finishUpdate t)
    else .next (raiseOutOfRange s)

end Sys2Proof.Machine
end

