-- ==== Sys2Proof/Machine/Step.lean ====
section
/-! DEFINITION. One step: the next thing the host presents is taken and runs to completion (00_scope.md rule R9, 30_encoding.md
rule R60). -/

namespace Sys2Proof.Machine

/-- One host event: a command is accepted, decoded and executed; hardware reset is taken; with nothing presented the
block stays idle (70_reset_and_hazards.md rules R170, R179, R180). What is no packet has no step (30_encoding.md rule R66).
Hardware reset is taken without decoding what it cuts off, also where that is no command (DESIGN CHOICE, log entry 10). -/
def step (s : State) : Host.Outcome State Fault Refusal :=
  match s.inputs with
  | [] => .next s
  | .hardwareReset _ :: rest => .next (hardwareReset (s.setInputs rest))
  | .command c :: rest =>
    match decode c.packet with
    | .ok i => exec i (s.accept i c rest)
    | .error e => .refused (refusalOf e)

/-- The host presents next the packet whose bits are `w`, an UPDATE with the empty buffer (log entry 5). -/
def State.withFetchWord (s : State) (nbits w : Nat) : State := s.present (tablePacket nbits w)

end Sys2Proof.Machine
end

