-- ==== Sys2Proof/Machine/Reference.lean ====
section
/-! DEFINITION. The reference the paths must equal: the naive fold (40_datapath.md rule R89), the closed-form sums of a run
of bytes (rule R88), and the sums of a state as numbers. -/

namespace Sys2Proof.Machine

/-- NSTEP: one byte, reducing at once (40_datapath.md rule R89). -/
def nstep (p : Nat × Nat) (b : Byte) : Nat × Nat :=
  let s1 := (p.1 + b.toNat) % 65521
  (s1, (p.2 + s1) % 65521)

/-- NFOLD: the naive fold over a byte sequence (40_datapath.md rule R89). -/
def nfold : Nat × Nat → List Byte → Nat × Nat
  | p, [] => p
  | p, b :: rest => nfold (nstep p b) rest

/-- `b_1 + b_2 + ... + b_n` (40_datapath.md rule R88). -/
def byteSum : List Byte → Nat
  | [] => 0
  | b :: rest => b.toNat + byteSum rest

/-- `n*b_1 + (n-1)*b_2 + ... + 1*b_n` (40_datapath.md rule R88). -/
def weightedSum : List Byte → Nat
  | [] => 0
  | b :: rest => (rest.length + 1) * b.toNat + weightedSum rest

/-- The sub-sums (S1, S2) as numbers. -/
def State.sums (s : State) : Nat × Nat := (s.s1.toNat, s.s2.toNat)

/-- The working sums (W1, W2) as numbers. -/
def State.work (s : State) : Nat × Nat := (s.w1.toNat, s.w2.toNat)

end Sys2Proof.Machine
end

