-- ==== Sys2Proof/Safety.lean ====
section
/-! DEFINITION. The terms claims are stated in: the invariants of a safe run, what two states share that a host can learn of,
and sequences of UPDATEs as the host presents them. -/

namespace Sys2Proof.Machine

/-- Both sub-sums are below MODULUS (10_state.md rule R23). -/
abbrev Reduced (s : State) : Prop := s.s1.toNat < 65521 ∧ s.s2.toNat < 65521

/-- While PHASE = 0, ACC = 0x00000001 (10_state.md rule R24). -/
abbrev FreshIsInitial (s : State) : Prop := s.phase = .fresh → s.acc = 0x00000001

/-- The buffer, if there is one, is in canonical form, with no byte outside 0 to BUFLEN - 1. -/
abbrev BufferWf (b : Option Buffer) : Prop := ∀ x ∈ b, x.wf

/-- The buffer a host event carries, if any, is well formed. -/
def HostEvent.wf : HostEvent → Prop
  | .command c => BufferWf c.buffer
  | .hardwareReset none => True
  | .hardwareReset (some c) => BufferWf c.buffer

/-- The bound buffer and every presented one are well formed. -/
def BuffersWf (s : State) : Prop := BufferWf s.buf ∧ ∀ e ∈ s.inputs, e.wf

/-- The environment has supplied what the command needs: a buffer for UPDATE, nothing for the others (30_encoding.md rule
R60, 20_memory.md rule R40). -/
abbrev Supplied (i : Instr) (b : Option Buffer) : Prop :=
  match i with
  | .reset => True
  | .update _ _ => b.isSome = true
  | .finalize => True

/-- The invariant of the machine at every command boundary, where no buffer is bound (20_memory.md rule R40). -/
structure Inv (s : State) : Prop where
  reduced : Reduced s
  fresh   : FreshIsInitial s
  unbound : s.buf = none
  buffers : BuffersWf s

/-- What decides a run's responses: the sub-sums, PHASE and what is still presented (10_state.md rules R30, R36). -/
abbrev SameBlock (s t : State) : Prop :=
  s.s1 = t.s1 ∧ s.s2 = t.s2 ∧ s.phase = t.phase ∧ s.inputs = t.inputs

/-- Two results, from `s` and from `t`: both go on, to the same block and with the same new responses, or both stop for
the same reason. -/
def SameResult (s t : State) (r q : Result) : Prop :=
  match r, q with
  | .next s', .next t' =>
    SameBlock s' t' ∧ ∃ rs, s'.responses = s.responses ++ rs ∧ t'.responses = t.responses ++ rs
  | .fault x, .fault y => x = y
  | .refused x, .refused y => x = y
  | _, _ => False

/-- One UPDATE the host asks for: a buffer and a range of it. -/
structure UpdateCall where
  buffer : Buffer
  offset : Int
  length : Int

/-- Its range lies in its buffer. -/
abbrev UpdateCall.inRange (c : UpdateCall) : Prop := guardOk c.offset c.length c.buffer.len.toNat = true

/-- The bytes of its range, in index order. -/
def UpdateCall.bytes (c : UpdateCall) : List Byte := c.buffer.bytes c.offset.toNat c.length.toNat

/-- The packet and binding the host presents for it. -/
def UpdateCall.event (c : UpdateCall) : HostEvent := .command ⟨encode (.update c.offset c.length), some c.buffer⟩

/-- A command without a buffer, as the host presents it. -/
def commandEvent (i : Instr) : HostEvent := .command ⟨encode i, none⟩

/-- `n` steps of the machine. -/
def runSteps (n : Nat) (s : State) : Result := repeatOp n step s

end Sys2Proof.Machine
end

