-- ==== Sys2Proof/Certificates/Slice0/Obligations.lean ====
section
/-! DEFINITION. The statements for the provers, each with the rule of spec/ it formalises. Operand ranges are written out as
integer inequalities, so that no statement leans on the guard's own definition. -/

open Sys2Proof Sys2Proof.Machine

/- Constants -/

/-- R5: MODULUS is 65521, a prime, and no number from it up to 2^16 is another one. -/
def Obligations.ModulusIsLargestPrimeBelow65536 : Prop :=
  Config.modulus = 65521 ∧ Nat.Prime 65521 ∧ ∀ m, 65521 < m → m < 65536 → ¬ Nat.Prime m

/-- R6: MAX_BLOCK is 5552, a multiple of 16, and exactly the lengths up to it satisfy the overflow inequality. -/
def Obligations.MaxBlockIsLargestSafeLength : Prop :=
  Config.maxBlock = 5552 ∧ 5552 = 16 * 347 ∧
    ∀ n : Nat, 255 * n * (n + 1) / 2 + (n + 1) * (65521 - 1) ≤ 2 ^ 32 - 1 ↔ n ≤ 5552

/- Packets -/

/-- 30_encoding.md section 8 and vectors V50a to V50g: worked packets decode to their commands, reserved ones do not. -/
def Obligations.WorkedPacketsDecode : Prop :=
  decode [0x00] = .ok .reset ∧ decode [0x02] = .ok .finalize ∧
  decode [0x01, 0x03, 0, 0, 0, 0x06, 0, 0, 0] = .ok (.update 3 6) ∧
  decode [0x01, 0, 0, 0, 0, 0xB1, 0x15, 0, 0] = .ok (.update 0 5553) ∧
  decode [0x01, 0xFF, 0xFF, 0xFF, 0xFF, 0x04, 0, 0, 0] = .ok (.update (-1) 4) ∧
  decode [0x01, 0x02, 0, 0, 0, 0xFD, 0xFF, 0xFF, 0xFF] = .ok (.update 2 (-3)) ∧
  decode [0x01, 0xFF, 0xFF, 0xFF, 0x7F, 0xFF, 0xFF, 0xFF, 0x7F] = .ok (.update 2147483647 2147483647) ∧
  decode [0x01, 0, 0, 0, 0x80, 0, 0, 0, 0] = .ok (.update (-2147483648) 0) ∧
  decode [0x03] = .error (.reservedHeader 0x03) ∧ decode [0x04] = .error (.reservedHeader 0x04) ∧
  decode [0x05] = .error (.reservedHeader 0x05) ∧ decode [0x80] = .error (.reservedHeader 0x80) ∧
  decode [0xFF] = .error (.reservedHeader 0xFF)

/-- R67: the header alone gives the packet's length, and every packet that decodes has exactly that length. -/
def Obligations.HeaderGivesPacketLength : Prop :=
  (∀ h : Byte, packetLength h =
    if h.toNat / 4 ≠ 0 ∨ h.toNat % 4 = 3 then none else if h.toNat % 4 = 1 then some 9 else some 1) ∧
  (∀ (p : List Byte) (i : Instr), decode p = .ok i → ∃ h rest, p = h :: rest ∧ packetLength h = some p.length)

/-- R66: a header 0x03 to 0xFF decodes to nothing whatever follows it, the machine refuses it, and every 8 operand bytes
after the header of UPDATE are a legal packet. -/
def Obligations.ReservedHeaderHasNoStep : Prop :=
  (∀ (h : Byte) (rest : List Byte), 3 ≤ h.toNat →
    decode (h :: rest) = .error (.reservedHeader h) ∧
    ∀ (s : State) (b : Option Buffer) (evs : List HostEvent), s.inputs = .command ⟨h :: rest, b⟩ :: evs →
      step s = .refused (.reservedHeader h)) ∧
  (∀ operands : List Byte, operands.length = 8 →
    ∃ offset length, decode (0x01 :: operands) = .ok (.update offset length))

/-- R63, R64: bytes 1 to 4 are OFFSET and bytes 5 to 8 LENGTH, least significant byte first, two's complement. -/
def Obligations.UpdateFieldsAreLittleEndianSigned : Prop :=
  ∀ o0 o1 o2 o3 l0 l1 l2 l3 : Byte, ∃ offset length : Int,
    decode [0x01, o0, o1, o2, o3, l0, l1, l2, l3] = .ok (.update offset length) ∧
    offset = (o0.toNat + 256 * o1.toNat + 65536 * o2.toNat + 16777216 * o3.toNat : Nat)
      - (if 128 ≤ o3.toNat then 4294967296 else 0) ∧
    length = (l0.toNat + 256 * l1.toNat + 65536 * l2.toNat + 16777216 * l3.toNat : Nat)
      - (if 128 ≤ l3.toNat then 4294967296 else 0)

/-- Every well-formed command is what its packet decodes to. -/
def Obligations.DecodeEncodeRoundTrip : Prop :=
  ∀ i : Instr, i.wellFormed = true → decode (encode i) = .ok i

/-- Every packet that decodes is the packet of the command it decodes to, and that command is well formed. -/
def Obligations.EncodeDecodeRoundTrip : Prop :=
  ∀ (p : List Byte) (i : Instr), decode p = .ok i → i.wellFormed = true ∧ encode i = p

/- Reset -/

/-- R32, R170: the sums, PHASE and ACC after hardware reset, with no command in progress, so no buffer bound (R40), and no
response pending. Nothing is said of W1, W2, POS and REM, whose values there are the model's choice (log entry 1). -/
def Obligations.ResetStateIsInitial : Prop :=
  State.reset.s1 = 1 ∧ State.reset.s2 = 0 ∧ State.reset.phase = .fresh ∧ State.reset.acc = 0x00000001 ∧
    State.reset.inputs = [] ∧ State.reset.responses = [] ∧ State.reset.buf = none

/-- R100: RESET from every state. -/
def Obligations.ResetCommandResult : Prop :=
  encode .reset = [0x00] ∧
  ∀ s : State, ∃ t, exec .reset s = .next t ∧ t.acc = 0x00000001 ∧
    t = { s with s1 := 1, s2 := 0, phase := .fresh, responses := s.responses ++ [⟨0x00, []⟩] }

/-- R101: RESET runs from every state, in either phase, to Fresh; after another RESET, and right after hardware reset, it
changes nothing but to respond. -/
def Obligations.ResetCommandIsIdempotent : Prop :=
  (∀ s : State, ∃ t u, exec .reset s = .next t ∧ t.phase = .fresh ∧ exec .reset t = .next u ∧
    u = { t with responses := t.responses ++ [⟨0x00, []⟩] }) ∧
  (∀ s : State, exec .reset (hardwareReset s)
    = .next { hardwareReset s with responses := s.responses ++ [⟨0x00, []⟩] }) ∧
  exec .reset State.reset = .next { State.reset with responses := [⟨0x00, []⟩] }

/-- R102, R170: presented as the next event, the RESET command and hardware reset leave the same block state, that of
`State.reset`; RESET responds and hardware reset does not. That hardware reset goes on also where what it cuts off is a
reserved header or a malformed packet is the model's choice (log entry 10, DESIGN CHOICE): R170 speaks of an UPDATE in
progress. -/
def Obligations.ResetAndHardwareResetAgree : Prop :=
  ∀ (s : State) (evs : List HostEvent) (cut : Option Presented), ∃ t u,
    step { s with inputs := commandEvent .reset :: evs } = .next t ∧
    step { s with inputs := .hardwareReset cut :: evs } = .next u ∧
    SameBlock t { State.reset with inputs := evs } ∧ SameBlock u { State.reset with inputs := evs } ∧
    t.responses = s.responses ++ [⟨0x00, []⟩] ∧ u.responses = s.responses

/- Datapath -/

/-- R22: ACC packs S2 above S1. -/
def Obligations.AccumulatorPacksSums : Prop :=
  ∀ s : State, s.acc.toNat = s.s2.toNat * 65536 + s.s1.toNat

/-- R84: CSUB subtracts MODULUS once; it is the remainder exactly for values below 131042. -/
def Obligations.CsubSubtractsOnce : Prop :=
  ∀ v : Word, (csub v).toNat = (if 65521 ≤ v.toNat then v.toNat - 65521 else v.toNat) ∧
    ((csub v).toNat = v.toNat % 65521 ↔ v.toNat < 131042)

/-- R85: MOD is the remainder, below MODULUS, and the identity on reduced values. -/
def Obligations.ModuloIsRemainder : Prop :=
  ∀ v : Word, (modulo v).toNat = v.toNat % 65521 ∧ (modulo v).toNat ≤ 65520 ∧
    (v.toNat ≤ 65520 → modulo v = v) ∧ modulo (modulo v) = modulo v

/-- R82: STEP at an index that exists, with a byte still to read. -/
def Obligations.StepFoldsOneByte : Prop :=
  ∀ (s : State) (b : Buffer) (x : Byte), s.buf = some b → b.read s.pos.toNat = some x → 1 ≤ s.rem.toNat →
    ∃ t, stepByte s = .next t ∧
      t.w1.toNat = (s.w1.toNat + x.toNat) % 2 ^ 32 ∧ t.w2.toNat = (s.w2.toNat + t.w1.toNat) % 2 ^ 32 ∧
      t.pos.toNat = s.pos.toNat + 1 ∧ t.rem.toNat = s.rem.toNat - 1 ∧
      t = { s with w1 := t.w1, w2 := t.w2, pos := t.pos, rem := t.rem, reads := s.reads ++ [s.pos.toNat] }

/-- R88: a run of STEPs whose exact sums fit 32 bits holds those sums. -/
def Obligations.StepsHaveClosedForm : Prop :=
  ∀ (s : State) (b : Buffer) (n : Nat), s.buf = some b → n ≤ s.rem.toNat → s.pos.toNat + n ≤ b.len.toNat →
    s.w1.toNat + byteSum (b.bytes s.pos.toNat n) < 2 ^ 32 →
    s.w2.toNat + n * s.w1.toNat + weightedSum (b.bytes s.pos.toNat n) < 2 ^ 32 →
    ∃ t, repeatOp n stepByte s = .next t ∧
      t.w1.toNat = s.w1.toNat + byteSum (b.bytes s.pos.toNat n) ∧
      t.w2.toNat = s.w2.toNat + n * s.w1.toNat + weightedSum (b.bytes s.pos.toNat n) ∧
      t.pos.toNat = s.pos.toNat + n ∧ t.rem.toNat = s.rem.toNat - n

/-- R87: n STEPs from reduced values: for n up to 5552 the working sums are the exact sums, within the rule's bounds and
below 2^32; both bounds are attained together by 0xFF bytes from (65520, 65520); 5553 such bytes do wrap W2. -/
def Obligations.SumsStayBelowOverflowBound : Prop :=
  (∀ (s : State) (b : Buffer) (n : Nat), s.buf = some b → n ≤ 5552 → s.w1.toNat ≤ 65520 → s.w2.toNat ≤ 65520 →
    s.pos.toNat + n ≤ b.len.toNat →
    ∃ t, repeatOp n stepByte s = .next t ∧
      t.w1.toNat = s.w1.toNat + byteSum (b.bytes s.pos.toNat n) ∧
      t.w2.toNat = s.w2.toNat + n * s.w1.toNat + weightedSum (b.bytes s.pos.toNat n) ∧
      t.w1.toNat ≤ 65520 + 255 * n ∧ t.w2.toNat ≤ (n + 1) * 65520 + 255 * (n * (n + 1) / 2) ∧
      t.w1.toNat ≤ 1481280 ∧ t.w2.toNat ≤ 4294690200) ∧
  (∀ n : Nat, 65520 + byteSum (List.replicate n 0xFF) = 65520 + 255 * n ∧
    65520 + n * 65520 + weightedSum (List.replicate n 0xFF)
      = (n + 1) * 65520 + 255 * (n * (n + 1) / 2)) ∧
  65520 + 5553 * 65520 + weightedSum (List.replicate 5553 0xFF) = 4296171735 ∧ 4296171735 > 2 ^ 32 - 1 ∧
  (∀ (s : State) (b : Buffer), s.buf = some b → s.w1.toNat = 65520 → s.w2.toNat = 65520 →
    s.pos.toNat + 5553 ≤ b.len.toNat →
    b.bytes s.pos.toNat 5553 = List.replicate 5553 0xFF →
    ∃ t, repeatOp 5553 stepByte s = .next t ∧ t.w2.toNat = 4296171735 - 2 ^ 32)

/- UPDATE -/

/-- R151: UPDATE answers OutOfRange exactly when the range does not lie in the buffer. -/
def Obligations.OutOfRangeExactlyWhenGuardFails : Prop :=
  ∀ (s : State) (b : Buffer) (offset length : Int), s.buf = some b →
    ((∃ t, exec (.update offset length) s = .next t ∧ t.responses = s.responses ++ [⟨0x01, []⟩]) ↔
      (offset < 0 ∨ length < 0 ∨ offset + length > b.len.toNat))

/-- R113: a failing guard leaves everything as it was and responds 0x01, which ends the UPDATE and so its binding (R40); a
passing one responds 0x00. -/
def Obligations.FailedGuardChangesNothing : Prop :=
  ∀ (s : State) (b : Buffer) (offset length : Int), s.buf = some b →
    ((offset < 0 ∨ length < 0 ∨ offset + length > b.len.toNat) →
      exec (.update offset length) s = .next { s with buf := none, responses := s.responses ++ [⟨0x01, []⟩] }) ∧
    (0 ≤ offset → 0 ≤ length → offset + length ≤ b.len.toNat →
      ∃ t, exec (.update offset length) s = .next t ∧ t.responses = s.responses ++ [⟨0x00, []⟩])

/-- R114: a zero-length UPDATE whose guard passes responds 0x00 and changes nothing; its binding ends with it (R40). -/
def Obligations.ZeroLengthUpdateIsNoOp : Prop :=
  ∀ (s : State) (b : Buffer) (offset : Int), s.buf = some b → 0 ≤ offset → offset ≤ b.len.toNat →
    exec (.update offset 0) s = .next { s with buf := none, responses := s.responses ++ [⟨0x00, []⟩] }

/-- R116: UPDATE of one byte adds, subtracts once, adds the reduced S1 and subtracts once; neither intermediate value
reaches 131042. -/
def Obligations.SingleByteUpdateSubtractsOnce : Prop :=
  ∀ (s : State) (b : Buffer) (offset : Int) (x : Byte), s.buf = some b → Reduced s → 0 ≤ offset →
    b.read offset.toNat = some x →
    ∃ t, exec (.update offset 1) s = .next t ∧
      s.s1.toNat + x.toNat < 131042 ∧ s.s2.toNat + t.s1.toNat < 131042 ∧
      t.s1.toNat = (if 65521 ≤ s.s1.toNat + x.toNat then s.s1.toNat + x.toNat - 65521 else s.s1.toNat + x.toNat) ∧
      t.s2.toNat = (if 65521 ≤ s.s2.toNat + t.s1.toNat then s.s2.toNat + t.s1.toNat - 65521
        else s.s2.toNat + t.s1.toNat)

/-- R117: for 2 to 15 bytes UPDATE runs STEPs until REM is 0, within the rule's bounds, then CSUB on W1 and MOD on W2. -/
def Obligations.ShortUpdateReducesOnce : Prop :=
  ∀ (s : State) (b : Buffer) (offset length : Int), s.buf = some b → Reduced s → 0 ≤ offset → 2 ≤ length → length ≤ 15 →
    offset + length ≤ b.len.toNat →
    ∃ u, repeatOp length.toNat stepByte (loadw offset length s) = .next u ∧ u.rem = 0 ∧
      u.w1.toNat ≤ 69345 ∧ u.w2.toNat ≤ 1078920 ∧
      exec (.update offset length) s = .next (finishUpdate (u.setWork (csub u.w1) (modulo u.w2)))

/-- R118: a full chunk from reduced sums stays below 2^32 and ends reduced, 5552 bytes further. -/
def Obligations.ChunkStaysBelowOverflowAndReduces : Prop :=
  ∀ (s : State) (b : Buffer), s.buf = some b → s.w1.toNat ≤ 65520 → s.w2.toNat ≤ 65520 → 5552 ≤ s.rem.toNat →
    s.pos.toNat + 5552 ≤ b.len.toNat →
    ∃ u t, repeatOp 5552 stepByte s = .next u ∧ u.w1.toNat ≤ 1481280 ∧ u.w2.toNat ≤ 4294690200 ∧
      u.w1.toNat = s.w1.toNat + byteSum (b.bytes s.pos.toNat 5552) ∧
      u.w2.toNat = s.w2.toNat + 5552 * s.w1.toNat + weightedSum (b.bytes s.pos.toNat 5552) ∧
      chunk s = .next t ∧ t.w1.toNat = u.w1.toNat % 65521 ∧ t.w2.toNat = u.w2.toNat % 65521 ∧
      t.pos.toNat = s.pos.toNat + 5552 ∧ t.rem.toNat = s.rem.toNat - 5552

/-- R118, R119: how often each loop of the bulk path runs. -/
def Obligations.BulkPathLoopCounts : Prop :=
  ∀ (s : State) (b : Buffer), s.buf = some b → s.pos.toNat + s.rem.toNat ≤ b.len.toNat →
    bulkPath s =
      andThen (repeatOp (s.rem.toNat / 5552) chunk s) fun t =>
        andThen (repeatOp (s.rem.toNat % 5552 / 16) group16 t) fun u =>
          andThen (repeatOp (s.rem.toNat % 16) stepByte u) fun v =>
            .next { v with w1 := modulo v.w1, w2 := modulo v.w2 }

/-- R120: after its path an UPDATE has consumed its range and holds reduced sums; STOREW and PHASE follow. -/
def Obligations.UpdateExitState : Prop :=
  ∀ (s : State) (b : Buffer) (offset length : Int), s.buf = some b → Reduced s → 0 ≤ offset → 1 ≤ length →
    offset + length ≤ b.len.toNat →
    ∃ t u, pathFor length (loadw offset length s) = .next t ∧
      t.rem = 0 ∧ (t.pos.toNat : Int) = offset + length ∧ t.w1.toNat ≤ 65520 ∧ t.w2.toNat ≤ 65520 ∧
      exec (.update offset length) s = .next u ∧ u.s1.toNat = t.w1.toNat ∧ u.s2.toNat = t.w2.toNat ∧
      u.phase = .accumulating ∧ Reduced u

/-- R121: from every reduced state the path chosen computes the naive fold, and so does every other path wherever its
range of lengths can be exchanged: the bulk path for all lengths, the short path up to 15. -/
def Obligations.PathsEqualNaiveFold : Prop :=
  ∀ (s : State) (b : Buffer) (offset length : Int), s.buf = some b → Reduced s → 0 ≤ offset → 1 ≤ length →
    offset + length ≤ b.len.toNat →
    (∃ t, pathFor length (loadw offset length s) = .next t ∧
      t.work = nfold s.sums (b.bytes offset.toNat length.toNat) ∧
      (storew t).sums = nfold s.sums (b.bytes offset.toNat length.toNat)) ∧
    (∃ t, bulkPath (loadw offset length s) = .next t ∧
      t.work = nfold s.sums (b.bytes offset.toNat length.toNat)) ∧
    (length ≤ 15 → ∃ t, shortPath (loadw offset length s) = .next t ∧
      t.work = nfold s.sums (b.bytes offset.toNat length.toNat))

/-- R111: UPDATE completes with the naive fold of its range, equally with the closed-form sums modulo 65521. -/
def Obligations.UpdateComputesNaiveFold : Prop :=
  ∀ (s : State) (b : Buffer) (offset length : Int), s.buf = some b → Reduced s → 0 ≤ offset → 0 ≤ length →
    offset + length ≤ b.len.toNat →
    ∃ t, exec (.update offset length) s = .next t ∧
      t.sums = nfold s.sums (b.bytes offset.toNat length.toNat) ∧
      t.s1.toNat = (s.s1.toNat + byteSum (b.bytes offset.toNat length.toNat)) % 65521 ∧
      t.s2.toNat = (s.s2.toNat + length.toNat * s.s1.toNat
        + weightedSum (b.bytes offset.toNat length.toNat)) % 65521

/-- R110, R48: everything an UPDATE of one byte or more leaves as it was, in every state; it reads exactly its range, each
index once, ascending. Up to its exit every byte of the buffer reads as before, and the exit releases the buffer (R40).
The values of W1, W2 it leaves in the hidden registers are not fixed here. -/
def Obligations.UpdateFrameAndReads : Prop :=
  ∀ (s : State) (b : Buffer) (offset length : Int), s.buf = some b → 0 ≤ offset → 1 ≤ length →
    offset + length ≤ b.len.toNat →
    ∃ u t, pathFor length (loadw offset length s) = .next u ∧ u.buf = some b ∧
      (∀ a, u.bound.read a = b.read a) ∧
      exec (.update offset length) s = .next t ∧
      t = { s with
        s1 := t.s1, s2 := t.s2, phase := .accumulating
        w1 := t.w1, w2 := t.w2, pos := t.pos, rem := t.rem, buf := none
        responses := s.responses ++ [⟨0x00, []⟩]
        reads := s.reads ++ List.range' offset.toNat length.toNat }

/-- R48: what every command reads: an UPDATE that passes its guard its range, everything else nothing. -/
def Obligations.OnlyTheRangeIsRead : Prop :=
  ∀ (i : Instr) (s : State), Supplied i s.buf → ∃ t, exec i s = .next t ∧
    t.reads = match i, s.buf with
      | .update offset length, some b =>
        if 0 ≤ offset ∧ 0 ≤ length ∧ offset + length ≤ b.len.toNat
        then s.reads ++ List.range' offset.toNat length.toNat else s.reads
      | _, _ => s.reads

/-- R125: the new sums, the new PHASE and the response depend on the old sums and PHASE, on OFFSET, LENGTH and BUFLEN and on
the bytes of the range, and on nothing else. -/
def Obligations.UpdateDependsOnRangeOnly : Prop :=
  ∀ (s t : State) (b c : Buffer) (offset length : Int), s.buf = some b → t.buf = some c →
    s.s1 = t.s1 → s.s2 = t.s2 → s.phase = t.phase → b.len = c.len →
    (∀ a : Nat, offset ≤ a → (a : Int) < offset + length → b.read a = c.read a) →
    ∃ s' t' r, exec (.update offset length) s = .next s' ∧ exec (.update offset length) t = .next t' ∧
      s'.s1 = t'.s1 ∧ s'.s2 = t'.s2 ∧ s'.phase = t'.phase ∧
      s'.responses = s.responses ++ [r] ∧ t'.responses = t.responses ++ [r]

/-- R123, R43: nothing an UPDATE does, from its first STEP to the last reduction of its path, changes the buffer bound for
it, and no command changes what is still presented, later buffers included (that they stand in the command channel is the
model's form, log entry 3). After its response an UPDATE holds no buffer at all (R40); RESET and FINALIZE leave the
binding as it is. -/
def Obligations.BufferIsNeverWritten : Prop :=
  (∀ s t : State, (stepByte s = .next t ∨ group16 s = .next t ∨ chunk s = .next t ∨ singlePath s = .next t ∨
      shortPath s = .next t ∨ bulkPath s = .next t) → t.buf = s.buf ∧ t.inputs = s.inputs) ∧
  (∀ (i : Instr) (s : State), Supplied i s.buf → ∃ t, exec i s = .next t ∧ t.inputs = s.inputs ∧
    t.buf = match i with
      | .update _ _ => none
      | _ => s.buf)

/-- R40, R174: after every step that took a command or a hardware reset no buffer is bound, RESET and FINALIZE never have
one, and what an UPDATE leaves behind is the same whatever its buffer held outside the range: no copy is kept. -/
def Obligations.NoBufferOutlivesItsUpdate : Prop :=
  (∀ s t : State, s.inputs ≠ [] → step s = .next t → t.buf = none) ∧
  (∀ (s : State) (c : Presented) (rest : List HostEvent) (i : Instr), (i = .reset ∨ i = .finalize) →
    s.inputs = .command c :: rest → decode c.packet = .ok i →
    step s = exec i { s with inputs := rest, buf := none }) ∧
  (∀ (s : State) (b c : Buffer) (offset length : Int), b.len = c.len →
    (∀ a : Nat, offset ≤ a → (a : Int) < offset + length → b.read a = c.read a) →
    ∃ t, exec (.update offset length) { s with buf := some b } = .next t ∧
      exec (.update offset length) { s with buf := some c } = .next t)

/-- The environment supplies a buffer with each UPDATE (R60); an UPDATE without one is described nowhere and is refused,
which is the model's choice (log entry 6). -/
def Obligations.UpdateWithoutBufferIsRefused : Prop :=
  (∀ (s : State) (offset length : Int), s.buf = none → exec (.update offset length) s = .refused .noBuffer) ∧
  (∀ (s : State) (packet : List Byte) (rest : List HostEvent) (offset length : Int),
    s.inputs = .command ⟨packet, none⟩ :: rest → decode packet = .ok (.update offset length) →
    step s = .refused .noBuffer)

/-- R122: successive UPDATEs over consecutive parts, from any buffers, leave the sums, the PHASE and the FINALIZE result
of one UPDATE over the whole. -/
def Obligations.ChunkingInvariance : Prop :=
  ∀ (s : State) (parts : List UpdateCall) (whole : UpdateCall) (rest : List HostEvent), Reduced s →
    (∀ c ∈ parts, c.inRange) → whole.inRange → whole.bytes = parts.flatMap UpdateCall.bytes →
    ∃ t u payload,
      runSteps parts.length { s with inputs := parts.map UpdateCall.event ++ rest } = .next t ∧
      runSteps 1 { s with inputs := whole.event :: rest } = .next u ∧
      t.sums = u.sums ∧ t.phase = u.phase ∧ t.inputs = rest ∧ u.inputs = rest ∧
      exec .finalize t = .next { t with responses := t.responses ++ [⟨0x00, payload⟩] } ∧
      exec .finalize u = .next { u with responses := u.responses ++ [⟨0x00, payload⟩] }

/- FINALIZE -/

/-- R140: FINALIZE from every state: the response is all it adds. -/
def Obligations.FinalizeResult : Prop :=
  encode .finalize = [0x02] ∧
  ∀ s : State, exec .finalize s = .next { s with responses := s.responses ++
    [⟨0x00, [s.s1.extractLsb' 0 8, s.s1.extractLsb' 8 8, s.s2.extractLsb' 0 8, s.s2.extractLsb' 8 8]⟩] }

/-- R141: payload byte k is ACC[8k+7:8k]. -/
def Obligations.FinalizeIsLittleEndian : Prop :=
  ∀ s : State, ∃ t d0 d1 d2 d3, exec .finalize s = .next t ∧
    t.responses = s.responses ++ [⟨0x00, [d0, d1, d2, d3]⟩] ∧
    d0 = s.acc.extractLsb' 0 8 ∧ d1 = s.acc.extractLsb' 8 8 ∧
    d2 = s.acc.extractLsb' 16 8 ∧ d3 = s.acc.extractLsb' 24 8 ∧
    d0.toNat + 256 * d1.toNat + 65536 * d2.toNat + 16777216 * d3.toNat = s.s2.toNat * 65536 + s.s1.toNat

/-- R142: a FINALIZE adds its response and leaves everything else as it was, and every command after it does what it would
have done before it, with whatever buffer is supplied for it. -/
def Obligations.FinalizeIsNonDestructive : Prop :=
  ∀ (s : State) (j : Instr) (supplied : Option Buffer), Supplied j supplied → ∃ t p u v r, exec .finalize s = .next t ∧
    t = { s with responses := s.responses ++ [⟨0x00, p⟩] } ∧
    exec j { s with buf := supplied } = .next u ∧ exec j { t with buf := supplied } = .next v ∧
    u.responses = s.responses ++ [r] ∧ v = { u with responses := t.responses ++ [r] }

/-- R143: in a reduced state each half of the payload is below 65521; directly after reset it is 01 00 00 00. -/
def Obligations.FinalizeShowsReducedSums : Prop :=
  (∀ s : State, Reduced s → ∃ t d0 d1 d2 d3, exec .finalize s = .next t ∧
    t.responses = s.responses ++ [⟨0x00, [d0, d1, d2, d3]⟩] ∧
    d0.toNat + 256 * d1.toNat < 65521 ∧ d2.toNat + 256 * d3.toNat < 65521) ∧
  (∃ t, exec .finalize State.reset = .next t ∧ t.responses = [⟨0x00, [0x01, 0x00, 0x00, 0x00]⟩])

/-- R144: two FINALIZEs in a row return the same bytes, and the bytes depend on (S1, S2) alone. -/
def Obligations.FinalizeIsDeterministic : Prop :=
  ∀ s t : State, s.s1 = t.s1 → s.s2 = t.s2 → ∃ s' s'' t' payload,
    exec .finalize s = .next s' ∧ s'.responses = s.responses ++ [⟨0x00, payload⟩] ∧
    exec .finalize s' = .next s'' ∧ s''.responses = s'.responses ++ [⟨0x00, payload⟩] ∧
    exec .finalize t = .next t' ∧ t'.responses = t.responses ++ [⟨0x00, payload⟩]

/- All commands -/

/-- R68, R69: every command completes from every state with exactly one response, of its own form; UPDATE with the buffer
that comes with it (R60). -/
def Obligations.EveryCommandRespondsOnce : Prop :=
  ∀ (i : Instr) (s : State), Supplied i s.buf → ∃ t r, exec i s = .next t ∧ t.responses = s.responses ++ [r] ∧
    match i with
    | .reset => r = ⟨0x00, []⟩
    | .update _ _ => r = ⟨0x00, []⟩ ∨ r = ⟨0x01, []⟩
    | .finalize => r = ⟨0x00, [s.acc.extractLsb' 0 8, s.acc.extractLsb' 8 8, s.acc.extractLsb' 16 8,
        s.acc.extractLsb' 24 8]⟩

/-- R153, R157: after an OutOfRange every command does what it would have done before it, with whatever buffer is supplied
for it. -/
def Obligations.ErrorIsNotSticky : Prop :=
  ∀ (s : State) (b : Buffer) (offset length : Int) (j : Instr) (supplied : Option Buffer), s.buf = some b →
    (offset < 0 ∨ length < 0 ∨ offset + length > b.len.toNat) → Supplied j supplied →
    ∃ t u v r, exec (.update offset length) s = .next t ∧ t.responses = s.responses ++ [⟨0x01, []⟩] ∧
      exec j { s with buf := supplied } = .next u ∧ exec j { t with buf := supplied } = .next v ∧
      u.responses = s.responses ++ [r] ∧ v = { u with responses := t.responses ++ [r] }

/-- R24: what each command does to PHASE. -/
def Obligations.PhaseFollowsCommands : Prop :=
  ∀ (i : Instr) (s : State), Supplied i s.buf → ∃ t, exec i s = .next t ∧
    t.phase = match i, s.buf with
      | .reset, _ => .fresh
      | .update offset length, some b =>
        if 0 ≤ offset ∧ 1 ≤ length ∧ offset + length ≤ b.len.toNat then .accumulating else s.phase
      | _, _ => s.phase

/-- R23: every command keeps both sub-sums below MODULUS. -/
def Obligations.CommandsKeepSumsReduced : Prop :=
  ∀ (i : Instr) (s : State), Supplied i s.buf → Reduced s → ∃ t, exec i s = .next t ∧ Reduced t

/- The machine -/

/-- A step at a presented packet that decodes accepts it, binds the buffer of an UPDATE, and runs the decoded command. -/
def Obligations.StepRunsDecodedCommand : Prop :=
  ∀ (s : State) (c : Presented) (rest : List HostEvent) (i : Instr),
    s.inputs = .command c :: rest → decode c.packet = .ok i →
    step s = exec i { s with
      inputs := rest
      buf := match i with
        | .update _ _ => c.buffer
        | _ => none }

/-- R180: with nothing presented the block is idle and stays as it is (the stutter is the model's choice, log entry 5). -/
def Obligations.IdleStepChangesNothing : Prop :=
  ∀ s : State, s.inputs = [] → step s = .next s

/-- The invariant holds right after hardware reset. -/
def Obligations.InvariantHoldsAtReset : Prop := Inv State.reset

/-- R23, R24: every step, host events included, keeps the sums reduced, ACC initial while Fresh, no buffer bound between
commands (R40), and the presented buffers canonical; also a hardware reset that cuts off a byte string that is no command,
which the model takes by choice (log entry 10). -/
def Obligations.StepKeepsInvariant : Prop :=
  ∀ s t : State, Inv s → step s = .next t → Inv t

/-- R30, R33, R36: two runs that start with the same sums, PHASE and presented events agree in their sums, PHASE and
responses for ever, whatever the hidden registers, the bound buffer and the past responses hold. -/
def Obligations.HiddenStateNeverShows : Prop :=
  ∀ (n : Nat) (s t : State), SameBlock s t → SameResult s t (runSteps n s) (runSteps n t)

/-- R172: RESET, UPDATEs whose ranges spell the bytes, FINALIZE: from every state the last response is their checksum. -/
def Obligations.SessionReturnsChecksum : Prop :=
  ∀ (s : State) (parts : List UpdateCall) (rest : List HostEvent), (∀ c ∈ parts, c.inRange) →
    ∃ t, runSteps (parts.length + 2)
        { s with inputs := commandEvent .reset ::
            (parts.map UpdateCall.event ++ commandEvent .finalize :: rest) } = .next t ∧
      t.inputs = rest ∧
      t.responses = s.responses ++ List.replicate (parts.length + 1) ⟨0x00, []⟩ ++
        [⟨0x00, [BitVec.ofNat 8 (nfold (1, 0) (parts.flatMap UpdateCall.bytes)).1,
          BitVec.ofNat 8 ((nfold (1, 0) (parts.flatMap UpdateCall.bytes)).1 / 256),
          BitVec.ofNat 8 (nfold (1, 0) (parts.flatMap UpdateCall.bytes)).2,
          BitVec.ofNat 8 ((nfold (1, 0) (parts.flatMap UpdateCall.bytes)).2 / 256)]⟩]
end

