-- ==== Sys2Proof/Laws/State.lean ====
section
/-! SUPPORT. The small lemmas of the state's updates: what each field is after each update (all by rfl), and each composed
update as one record. -/

namespace Sys2Proof.Machine

@[simp] theorem State.setSums_s1 (s : State) (a b : Half) : (s.setSums a b).s1 = a := rfl
@[simp] theorem State.setSums_s2 (s : State) (a b : Half) : (s.setSums a b).s2 = b := rfl
@[simp] theorem State.setSums_phase (s : State) (a b : Half) : (s.setSums a b).phase = s.phase := rfl
@[simp] theorem State.setSums_w1 (s : State) (a b : Half) : (s.setSums a b).w1 = s.w1 := rfl
@[simp] theorem State.setSums_w2 (s : State) (a b : Half) : (s.setSums a b).w2 = s.w2 := rfl
@[simp] theorem State.setSums_pos (s : State) (a b : Half) : (s.setSums a b).pos = s.pos := rfl
@[simp] theorem State.setSums_rem (s : State) (a b : Half) : (s.setSums a b).rem = s.rem := rfl
@[simp] theorem State.setSums_buf (s : State) (a b : Half) : (s.setSums a b).buf = s.buf := rfl
@[simp] theorem State.setSums_inputs (s : State) (a b : Half) : (s.setSums a b).inputs = s.inputs := rfl
@[simp] theorem State.setSums_responses (s : State) (a b : Half) : (s.setSums a b).responses = s.responses := rfl
@[simp] theorem State.setSums_reads (s : State) (a b : Half) : (s.setSums a b).reads = s.reads := rfl
@[simp] theorem State.setSums_fresh (s : State) (a b : Half) : (s.setSums a b).fresh = s.fresh := rfl

@[simp] theorem State.setPhase_s1 (s : State) (p : Phase) : (s.setPhase p).s1 = s.s1 := rfl
@[simp] theorem State.setPhase_s2 (s : State) (p : Phase) : (s.setPhase p).s2 = s.s2 := rfl
@[simp] theorem State.setPhase_phase (s : State) (p : Phase) : (s.setPhase p).phase = p := rfl
@[simp] theorem State.setPhase_w1 (s : State) (p : Phase) : (s.setPhase p).w1 = s.w1 := rfl
@[simp] theorem State.setPhase_w2 (s : State) (p : Phase) : (s.setPhase p).w2 = s.w2 := rfl
@[simp] theorem State.setPhase_pos (s : State) (p : Phase) : (s.setPhase p).pos = s.pos := rfl
@[simp] theorem State.setPhase_rem (s : State) (p : Phase) : (s.setPhase p).rem = s.rem := rfl
@[simp] theorem State.setPhase_buf (s : State) (p : Phase) : (s.setPhase p).buf = s.buf := rfl
@[simp] theorem State.setPhase_inputs (s : State) (p : Phase) : (s.setPhase p).inputs = s.inputs := rfl
@[simp] theorem State.setPhase_responses (s : State) (p : Phase) : (s.setPhase p).responses = s.responses := rfl
@[simp] theorem State.setPhase_reads (s : State) (p : Phase) : (s.setPhase p).reads = s.reads := rfl
@[simp] theorem State.setPhase_fresh (s : State) (p : Phase) : (s.setPhase p).fresh = s.fresh := rfl

@[simp] theorem State.setWork_s1 (s : State) (a b : Word) : (s.setWork a b).s1 = s.s1 := rfl
@[simp] theorem State.setWork_s2 (s : State) (a b : Word) : (s.setWork a b).s2 = s.s2 := rfl
@[simp] theorem State.setWork_phase (s : State) (a b : Word) : (s.setWork a b).phase = s.phase := rfl
@[simp] theorem State.setWork_w1 (s : State) (a b : Word) : (s.setWork a b).w1 = a := rfl
@[simp] theorem State.setWork_w2 (s : State) (a b : Word) : (s.setWork a b).w2 = b := rfl
@[simp] theorem State.setWork_pos (s : State) (a b : Word) : (s.setWork a b).pos = s.pos := rfl
@[simp] theorem State.setWork_rem (s : State) (a b : Word) : (s.setWork a b).rem = s.rem := rfl
@[simp] theorem State.setWork_buf (s : State) (a b : Word) : (s.setWork a b).buf = s.buf := rfl
@[simp] theorem State.setWork_inputs (s : State) (a b : Word) : (s.setWork a b).inputs = s.inputs := rfl
@[simp] theorem State.setWork_responses (s : State) (a b : Word) : (s.setWork a b).responses = s.responses := rfl
@[simp] theorem State.setWork_reads (s : State) (a b : Word) : (s.setWork a b).reads = s.reads := rfl
@[simp] theorem State.setWork_fresh (s : State) (a b : Word) : (s.setWork a b).fresh = s.fresh := rfl

@[simp] theorem State.setSeq_s1 (s : State) (a b : Word) : (s.setSeq a b).s1 = s.s1 := rfl
@[simp] theorem State.setSeq_s2 (s : State) (a b : Word) : (s.setSeq a b).s2 = s.s2 := rfl
@[simp] theorem State.setSeq_phase (s : State) (a b : Word) : (s.setSeq a b).phase = s.phase := rfl
@[simp] theorem State.setSeq_w1 (s : State) (a b : Word) : (s.setSeq a b).w1 = s.w1 := rfl
@[simp] theorem State.setSeq_w2 (s : State) (a b : Word) : (s.setSeq a b).w2 = s.w2 := rfl
@[simp] theorem State.setSeq_pos (s : State) (a b : Word) : (s.setSeq a b).pos = a := rfl
@[simp] theorem State.setSeq_rem (s : State) (a b : Word) : (s.setSeq a b).rem = b := rfl
@[simp] theorem State.setSeq_buf (s : State) (a b : Word) : (s.setSeq a b).buf = s.buf := rfl
@[simp] theorem State.setSeq_inputs (s : State) (a b : Word) : (s.setSeq a b).inputs = s.inputs := rfl
@[simp] theorem State.setSeq_responses (s : State) (a b : Word) : (s.setSeq a b).responses = s.responses := rfl
@[simp] theorem State.setSeq_reads (s : State) (a b : Word) : (s.setSeq a b).reads = s.reads := rfl
@[simp] theorem State.setSeq_fresh (s : State) (a b : Word) : (s.setSeq a b).fresh = s.fresh := rfl

@[simp] theorem State.noteRead_s1 (s : State) (i : Nat) : (s.noteRead i).s1 = s.s1 := rfl
@[simp] theorem State.noteRead_s2 (s : State) (i : Nat) : (s.noteRead i).s2 = s.s2 := rfl
@[simp] theorem State.noteRead_phase (s : State) (i : Nat) : (s.noteRead i).phase = s.phase := rfl
@[simp] theorem State.noteRead_w1 (s : State) (i : Nat) : (s.noteRead i).w1 = s.w1 := rfl
@[simp] theorem State.noteRead_w2 (s : State) (i : Nat) : (s.noteRead i).w2 = s.w2 := rfl
@[simp] theorem State.noteRead_pos (s : State) (i : Nat) : (s.noteRead i).pos = s.pos := rfl
@[simp] theorem State.noteRead_rem (s : State) (i : Nat) : (s.noteRead i).rem = s.rem := rfl
@[simp] theorem State.noteRead_buf (s : State) (i : Nat) : (s.noteRead i).buf = s.buf := rfl
@[simp] theorem State.noteRead_inputs (s : State) (i : Nat) : (s.noteRead i).inputs = s.inputs := rfl
@[simp] theorem State.noteRead_responses (s : State) (i : Nat) : (s.noteRead i).responses = s.responses := rfl
@[simp] theorem State.noteRead_reads (s : State) (i : Nat) : (s.noteRead i).reads = s.reads ++ [i] := rfl
@[simp] theorem State.noteRead_fresh (s : State) (i : Nat) : (s.noteRead i).fresh = s.fresh := rfl

@[simp] theorem State.respond_s1 (s : State) (c : Byte) (p : List Byte) : (s.respond c p).s1 = s.s1 := rfl
@[simp] theorem State.respond_s2 (s : State) (c : Byte) (p : List Byte) : (s.respond c p).s2 = s.s2 := rfl
@[simp] theorem State.respond_phase (s : State) (c : Byte) (p : List Byte) : (s.respond c p).phase = s.phase := rfl
@[simp] theorem State.respond_w1 (s : State) (c : Byte) (p : List Byte) : (s.respond c p).w1 = s.w1 := rfl
@[simp] theorem State.respond_w2 (s : State) (c : Byte) (p : List Byte) : (s.respond c p).w2 = s.w2 := rfl
@[simp] theorem State.respond_pos (s : State) (c : Byte) (p : List Byte) : (s.respond c p).pos = s.pos := rfl
@[simp] theorem State.respond_rem (s : State) (c : Byte) (p : List Byte) : (s.respond c p).rem = s.rem := rfl
@[simp] theorem State.respond_buf (s : State) (c : Byte) (p : List Byte) : (s.respond c p).buf = s.buf := rfl
@[simp] theorem State.respond_inputs (s : State) (c : Byte) (p : List Byte) : (s.respond c p).inputs = s.inputs := rfl
@[simp] theorem State.respond_responses (s : State) (c : Byte) (p : List Byte) : (s.respond c p).responses = s.responses ++ [⟨c, p⟩] := rfl
@[simp] theorem State.respond_reads (s : State) (c : Byte) (p : List Byte) : (s.respond c p).reads = s.reads := rfl
@[simp] theorem State.respond_fresh (s : State) (c : Byte) (p : List Byte) : (s.respond c p).fresh = s.fresh := rfl

@[simp] theorem State.setInputs_s1 (s : State) (r : List HostEvent) : (s.setInputs r).s1 = s.s1 := rfl
@[simp] theorem State.setInputs_s2 (s : State) (r : List HostEvent) : (s.setInputs r).s2 = s.s2 := rfl
@[simp] theorem State.setInputs_phase (s : State) (r : List HostEvent) : (s.setInputs r).phase = s.phase := rfl
@[simp] theorem State.setInputs_w1 (s : State) (r : List HostEvent) : (s.setInputs r).w1 = s.w1 := rfl
@[simp] theorem State.setInputs_w2 (s : State) (r : List HostEvent) : (s.setInputs r).w2 = s.w2 := rfl
@[simp] theorem State.setInputs_pos (s : State) (r : List HostEvent) : (s.setInputs r).pos = s.pos := rfl
@[simp] theorem State.setInputs_rem (s : State) (r : List HostEvent) : (s.setInputs r).rem = s.rem := rfl
@[simp] theorem State.setInputs_buf (s : State) (r : List HostEvent) : (s.setInputs r).buf = s.buf := rfl
@[simp] theorem State.setInputs_inputs (s : State) (r : List HostEvent) : (s.setInputs r).inputs = r := rfl
@[simp] theorem State.setInputs_responses (s : State) (r : List HostEvent) : (s.setInputs r).responses = s.responses := rfl
@[simp] theorem State.setInputs_reads (s : State) (r : List HostEvent) : (s.setInputs r).reads = s.reads := rfl
@[simp] theorem State.setInputs_fresh (s : State) (r : List HostEvent) : (s.setInputs r).fresh = s.fresh := rfl

@[simp] theorem State.bind_s1 (s : State) (b : Option Buffer) : (s.bind b).s1 = s.s1 := rfl
@[simp] theorem State.bind_s2 (s : State) (b : Option Buffer) : (s.bind b).s2 = s.s2 := rfl
@[simp] theorem State.bind_phase (s : State) (b : Option Buffer) : (s.bind b).phase = s.phase := rfl
@[simp] theorem State.bind_w1 (s : State) (b : Option Buffer) : (s.bind b).w1 = s.w1 := rfl
@[simp] theorem State.bind_w2 (s : State) (b : Option Buffer) : (s.bind b).w2 = s.w2 := rfl
@[simp] theorem State.bind_pos (s : State) (b : Option Buffer) : (s.bind b).pos = s.pos := rfl
@[simp] theorem State.bind_rem (s : State) (b : Option Buffer) : (s.bind b).rem = s.rem := rfl
@[simp] theorem State.bind_buf (s : State) (b : Option Buffer) : (s.bind b).buf = b := rfl
@[simp] theorem State.bind_inputs (s : State) (b : Option Buffer) : (s.bind b).inputs = s.inputs := rfl
@[simp] theorem State.bind_responses (s : State) (b : Option Buffer) : (s.bind b).responses = s.responses := rfl
@[simp] theorem State.bind_reads (s : State) (b : Option Buffer) : (s.bind b).reads = s.reads := rfl
@[simp] theorem State.bind_fresh (s : State) (b : Option Buffer) : (s.bind b).fresh = s.fresh := rfl

@[simp] theorem State.endUpdate_s1 (s : State) (c : Byte) : (s.endUpdate c).s1 = s.s1 := rfl
@[simp] theorem State.endUpdate_s2 (s : State) (c : Byte) : (s.endUpdate c).s2 = s.s2 := rfl
@[simp] theorem State.endUpdate_phase (s : State) (c : Byte) : (s.endUpdate c).phase = s.phase := rfl
@[simp] theorem State.endUpdate_w1 (s : State) (c : Byte) : (s.endUpdate c).w1 = s.w1 := rfl
@[simp] theorem State.endUpdate_w2 (s : State) (c : Byte) : (s.endUpdate c).w2 = s.w2 := rfl
@[simp] theorem State.endUpdate_pos (s : State) (c : Byte) : (s.endUpdate c).pos = s.pos := rfl
@[simp] theorem State.endUpdate_rem (s : State) (c : Byte) : (s.endUpdate c).rem = s.rem := rfl
@[simp] theorem State.endUpdate_buf (s : State) (c : Byte) : (s.endUpdate c).buf = none := rfl
@[simp] theorem State.endUpdate_inputs (s : State) (c : Byte) : (s.endUpdate c).inputs = s.inputs := rfl
@[simp] theorem State.endUpdate_responses (s : State) (c : Byte) : (s.endUpdate c).responses = s.responses ++ [⟨c, []⟩] := rfl
@[simp] theorem State.endUpdate_reads (s : State) (c : Byte) : (s.endUpdate c).reads = s.reads := rfl
@[simp] theorem State.endUpdate_fresh (s : State) (c : Byte) : (s.endUpdate c).fresh = s.fresh := rfl

/-- While a buffer is bound, the datapath reads that one. -/
theorem State.bound_eq {s : State} {b : Buffer} (h : s.buf = some b) : s.bound = b := by
  rw [State.bound, h]; rfl

/-- LOADW as one record (40_datapath.md rule R90). -/
theorem loadw_eq (offset length : Int) (s : State) : loadw offset length s =
    { s with w1 := zextSum s.s1, w2 := zextSum s.s2, pos := unsignedOperand offset, rem := unsignedOperand length } := rfl

/-- STOREW as one record (40_datapath.md rule R91). -/
theorem storew_eq (s : State) : storew s = { s with s1 := lowHalf s.w1, s2 := lowHalf s.w2 } := rfl

/-- The sequencer's advance as one record (40_datapath.md rule R82). -/
theorem State.advance_eq (s : State) : s.advance =
    { s with pos := s.pos + 1, rem := s.rem - 1, reads := s.reads ++ [s.pos.toNat] } := rfl

/-- The exit of UPDATE as one record (42_update.md rules R120, R124). -/
theorem finishUpdate_eq (s : State) : finishUpdate s =
    { s with s1 := lowHalf s.w1, s2 := lowHalf s.w2, phase := .accumulating, buf := none,
             responses := s.responses ++ [⟨0x00, []⟩] } := rfl

/-- Taking OutOfRange as one record (60_exceptions.md rule R156). -/
theorem raiseOutOfRange_eq (s : State) :
    raiseOutOfRange s = { s with buf := none, responses := s.responses ++ [⟨0x01, []⟩] } := rfl

/-- Accepting a command as one record (30_encoding.md rule R60). -/
theorem State.accept_eq (s : State) (i : Instr) (c : Presented) (rest : List HostEvent) :
    s.accept i c rest = { s with inputs := rest, buf := bindingFor i c.buffer } := rfl

@[simp] theorem bindingFor_reset (b : Option Buffer) : bindingFor .reset b = none := rfl
@[simp] theorem bindingFor_update (offset length : Int) (b : Option Buffer) :
    bindingFor (.update offset length) b = b := rfl
@[simp] theorem bindingFor_finalize (b : Option Buffer) : bindingFor .finalize b = none := rfl

end Sys2Proof.Machine
end

