-- ==== Sys2Proof/Laws/Ops.lean ====
section
/-! SUPPORT. What the shared operations can do: sequencing and loops, reading a buffer, the canonical form of buffers. -/

namespace Sys2Proof.Machine

@[simp] theorem andThen_next (s : State) (k : State → Result) : andThen (.next s) k = k s := rfl
@[simp] theorem andThen_fault (r : Fault) (k : State → Result) : andThen (.fault r) k = .fault r := rfl
@[simp] theorem andThen_refused (r : Refusal) (k : State → Result) : andThen (.refused r) k = .refused r := rfl

theorem andThen_assoc (o : Result) (f g : State → Result) :
    andThen (andThen o f) g = andThen o fun s => andThen (f s) g := by
  cases o <;> rfl

/-- A sequence goes on only through a state its first part left. -/
theorem andThen_eq_next {o : Result} {k : State → Result} {t : State} (h : andThen o k = .next t) :
    ∃ s, o = .next s ∧ k s = .next t := by
  cases o with
  | next s => exact ⟨s, rfl, h⟩
  | fault r => exact nomatch h
  | refused r => exact nomatch h

@[simp] theorem repeatOp_zero (body : State → Result) (s : State) : repeatOp 0 body s = .next s := rfl

theorem repeatOp_succ (n : Nat) (body : State → Result) (s : State) :
    repeatOp (n + 1) body s = andThen (body s) (repeatOp n body) := rfl

theorem repeatOp_add (m n : Nat) (body : State → Result) (s : State) :
    repeatOp (m + n) body s = andThen (repeatOp m body s) (repeatOp n body) := by
  induction m generalizing s with
  | zero => simp
  | succ m ih =>
    rw [Nat.add_right_comm, repeatOp_succ, repeatOp_succ, andThen_assoc]
    congr 1
    funext t
    exact ih t

theorem repeatOp_mul (m n : Nat) (body : State → Result) (s : State) :
    repeatOp m (repeatOp n body) s = repeatOp (m * n) body s := by
  induction m generalizing s with
  | zero => simp
  | succ m ih =>
    rw [repeatOp_succ, Nat.succ_mul, Nat.add_comm, repeatOp_add]
    congr 1
    funext t
    exact ih t

/-- The range the sequencer has still to read lies in the buffer (20_memory.md rule R55). -/
def InRange (s : State) : Prop := s.pos.toNat + s.rem.toNat ≤ s.bound.len.toNat

/-- A `while REM ≥ limit` loop whose body lowers REM by `limit` runs floor(REM / limit) times, given that much fuel. -/
theorem whileRem_eq_repeatOp {limit : Nat} {body : State → Result} (hl : 0 < limit)
    (hb : ∀ s, InRange s → limit ≤ s.rem.toNat →
      ∃ t, body s = .next t ∧ InRange t ∧ t.rem.toNat = s.rem.toNat - limit)
    (fuel : Nat) (s : State) (hs : InRange s) (hf : s.rem.toNat ≤ fuel) :
    whileRem limit body fuel s = repeatOp (s.rem.toNat / limit) body s := by
  induction fuel generalizing s with
  | zero =>
    have h0 : s.rem.toNat / limit = 0 := by rw [Nat.le_zero.mp hf]; exact Nat.zero_div limit
    rw [h0]; rfl
  | succ fuel ih =>
    unfold whileRem
    split
    · rename_i hle
      obtain ⟨t, ht, hr, hrem⟩ := hb s hs hle
      have hd : s.rem.toNat / limit = t.rem.toNat / limit + 1 := by
        rw [hrem, Nat.div_eq s.rem.toNat, if_pos ⟨hl, hle⟩]
      rw [hd, repeatOp_succ, ht, andThen_next, andThen_next]
      exact ih t hr (by omega)
    · rename_i hlt
      rw [Nat.div_eq_of_lt (by omega)]; rfl

/-- A read of an index that exists, and only that, gives a byte (20_memory.md rules R42, R49). -/
theorem Buffer.read_eq_some_iff (b : Buffer) (i : Nat) (x : Byte) :
    b.read i = some x ↔ i < b.len.toNat ∧ Memory.read b.cells i = x := by
  unfold Buffer.read
  split <;> simp_all

@[simp] theorem Buffer.bytes_zero (b : Buffer) (i : Nat) : b.bytes i 0 = [] := rfl

theorem Buffer.bytes_succ (b : Buffer) (i n : Nat) :
    b.bytes i (n + 1) = Memory.read b.cells i :: b.bytes (i + 1) n := rfl

@[simp] theorem Buffer.bytes_length (b : Buffer) (i n : Nat) : (b.bytes i n).length = n := by
  simp [Buffer.bytes]

theorem Buffer.bytes_add (b : Buffer) (i m n : Nat) :
    b.bytes i (m + n) = b.bytes i m ++ b.bytes (i + m) n := by
  simp [Buffer.bytes, ← List.map_append]

/-- Two buffers that read the same over a range that exists in both give the same bytes. -/
theorem Buffer.bytes_congr {b d : Buffer} {i n : Nat} (hb : i + n ≤ b.len.toNat) (hd : i + n ≤ d.len.toNat)
    (h : ∀ a, i ≤ a → a < i + n → b.read a = d.read a) : b.bytes i n = d.bytes i n := by
  refine List.map_congr_left fun a ha => ?_
  have hm := List.mem_range'_1.mp ha
  have := h a hm.1 hm.2
  simpa [Buffer.read, show a < b.len.toNat by omega, show a < d.len.toNat by omega] using this

theorem cellsFrom_ge (start : Nat) (bs : List Byte) : ∀ c ∈ cellsFrom start bs, start ≤ c.1 := by
  induction bs generalizing start with
  | nil => simp [cellsFrom]
  | cons b bs ih =>
    intro c hc
    unfold cellsFrom at hc
    split at hc
    · have := ih (start + 1) c hc; omega
    · rcases List.mem_cons.mp hc with rfl | hc
      · exact Nat.le_refl _
      · have := ih (start + 1) c hc; omega

theorem cellsFrom_lt (start : Nat) (bs : List Byte) : ∀ c ∈ cellsFrom start bs, c.1 < start + bs.length := by
  induction bs generalizing start with
  | nil => simp [cellsFrom]
  | cons b bs ih =>
    intro c hc
    unfold cellsFrom at hc
    simp only [List.length_cons]
    split at hc
    · have := ih (start + 1) c hc; omega
    · rcases List.mem_cons.mp hc with rfl | hc
      · simp
      · have := ih (start + 1) c hc; omega

/-- Placing bytes makes a list in canonical form. -/
theorem cellsFrom_wf (start : Nat) (bs : List Byte) : Memory.wf (cellsFrom start bs) := by
  induction bs generalizing start with
  | nil => exact ⟨List.Pairwise.nil, by simp [cellsFrom]⟩
  | cons b bs ih =>
    unfold cellsFrom
    split
    · exact ih (start + 1)
    · rename_i hb
      refine ⟨List.Pairwise.cons (fun c hc => ?_) (ih (start + 1)).1, fun c hc => ?_⟩
      · have := cellsFrom_ge (start + 1) bs c hc
        exact Nat.lt_of_lt_of_le (Nat.lt_succ_self start) this
      · rcases List.mem_cons.mp hc with rfl | hc
        · exact hb
        · exact (ih (start + 1)).2 c hc

/-- The one operation that builds a buffer keeps the canonical form (the block writes none: 20_memory.md rule R43). -/
theorem Buffer.ofBytes_wf (bs : List Byte) (h : bs.length < 2 ^ 31) : (Buffer.ofBytes bs).wf := by
  refine ⟨cellsFrom_wf 0 bs, fun c hc => ?_⟩
  have := cellsFrom_lt 0 bs c hc
  have hl : (Buffer.ofBytes bs).len.toNat = bs.length := by
    simp only [Buffer.ofBytes, BitVec.toNat_ofNat]; exact Nat.mod_eq_of_lt h
  omega

theorem cellsFrom_read_lt (start : Nat) (bs : List Byte) (i : Nat) (h : i < start) :
    Memory.read (cellsFrom start bs) i = Memory.unlisted := by
  induction bs generalizing start with
  | nil => rfl
  | cons b bs ih =>
    unfold cellsFrom
    split
    · exact ih (start + 1) (by omega)
    · simp only [Memory.read]
      rw [if_neg (by omega)]
      exact ih (start + 1) (by omega)

theorem cellsFrom_read (start : Nat) (bs : List Byte) (k : Nat) (h : k < bs.length) :
    Memory.read (cellsFrom start bs) (start + k) = bs[k] := by
  induction bs generalizing start k with
  | nil => exact absurd h (by simp)
  | cons b bs ih =>
    have step : ∀ k', k = k' + 1 → Memory.read (cellsFrom (start + 1) bs) (start + k) = (b :: bs)[k] := by
      rintro k' rfl
      rw [show start + (k' + 1) = start + 1 + k' by omega]
      simpa using ih (start + 1) k' (by simpa using h)
    unfold cellsFrom
    split
    · rename_i hb
      cases k with
      | zero => simpa [hb] using cellsFrom_read_lt (start + 1) bs start (by omega)
      | succ k' => exact step k' rfl
    · simp only [Memory.read]
      cases k with
      | zero => simp
      | succ k' => rw [if_neg (by omega)]; exact step k' rfl

/-- A buffer built from bytes reads back exactly those bytes (30_encoding.md rule R70). -/
theorem Buffer.ofBytes_bytes (bs : List Byte) : (Buffer.ofBytes bs).bytes 0 bs.length = bs := by
  refine List.ext_getElem (by simp) fun k h1 h2 => ?_
  simpa [Buffer.bytes, Buffer.ofBytes] using cellsFrom_read 0 bs k h2

/-- The guard is its three inequalities (42_update.md rule R112). -/
theorem guardOk_iff (offset length : Int) (bufLen : Nat) :
    guardOk offset length bufLen = true ↔ 0 ≤ offset ∧ 0 ≤ length ∧ offset + length ≤ bufLen := by
  simp [guardOk, and_assoc]

/-- An operand the guard has passed is loaded as its own value (40_datapath.md rule R90). -/
theorem unsignedOperand_toNat {x : Int} (h0 : 0 ≤ x) (h1 : x < 4294967296) : (unsignedOperand x).toNat = x.toNat := by
  simp only [unsignedOperand, BitVec.toNat_ofInt]
  omega

end Sys2Proof.Machine
end

