-- ==== Sys2Proof/Laws/Datapath.lean ====
section
/-! SUPPORT. The datapath in numbers: the reduction unit, runs of STEPs and their sums, and the naive fold in closed form. -/

namespace Sys2Proof.Machine

theorem csub_toNat (v : Word) :
    (csub v).toNat = if 65521 ≤ v.toNat then v.toNat - 65521 else v.toNat := by
  unfold csub Config.modulus
  split
  · rw [BitVec.toNat_sub_of_le (by rw [BitVec.le_def]; simpa using ‹_›)]; rfl
  · rfl

/-- CSUB reduces every value below twice MODULUS (40_datapath.md rule R84). -/
theorem csub_toNat_eq_mod {v : Word} (h : v.toNat < 131042) : (csub v).toNat = v.toNat % 65521 := by
  rw [csub_toNat]; split <;> omega

theorem modulo_toNat (v : Word) : (modulo v).toNat = v.toNat % 65521 := by
  simp only [modulo, Config.modulus, BitVec.toNat_ofNat]
  have := v.isLt; omega

@[simp] theorem zextByte_toNat (b : Byte) : (zextByte b).toNat = b.toNat := by
  have := b.isLt; simp [zextByte]; omega

@[simp] theorem zextSum_toNat (x : Half) : (zextSum x).toNat = x.toNat := by
  have := x.isLt; simp [zextSum]; omega

theorem lowHalf_toNat {w : Word} (h : w.toNat < 65536) : (lowHalf w).toNat = w.toNat := by
  simp [lowHalf]; omega

theorem pipe1_toNat (w1 : Word) (b : Byte) : (pipe1 w1 b).toNat = (w1.toNat + b.toNat) % 2 ^ 32 := by
  simp [pipe1]

theorem pipe2_toNat (w2 w1 : Word) : (pipe2 w2 w1).toNat = (w2.toNat + w1.toNat) % 2 ^ 32 := by
  simp [pipe2]

/-- Both pipelines over a run of bytes, with no reduction. -/
def pipes : Word × Word → List Byte → Word × Word
  | p, [] => p
  | p, b :: rest => pipes (pipe1 p.1 b, pipe2 p.2 (pipe1 p.1 b)) rest

theorem pipes_append (p : Word × Word) (bs cs : List Byte) : pipes p (bs ++ cs) = pipes (pipes p bs) cs := by
  induction bs generalizing p with
  | nil => rfl
  | cons b bs ih => exact ih _

/-- A run of bytes whose exact sums fit 32 bits holds them (40_datapath.md rule R88). -/
theorem pipes_toNat (p : Word × Word) (bs : List Byte)
    (h1 : p.1.toNat + byteSum bs < 2 ^ 32)
    (h2 : p.2.toNat + bs.length * p.1.toNat + weightedSum bs < 2 ^ 32) :
    (pipes p bs).1.toNat = p.1.toNat + byteSum bs ∧
    (pipes p bs).2.toNat = p.2.toNat + bs.length * p.1.toNat + weightedSum bs := by
  induction bs generalizing p with
  | nil => simp [pipes, byteSum, weightedSum]
  | cons b bs ih =>
    simp only [byteSum, weightedSum, List.length_cons, Nat.add_mul, Nat.one_mul] at h1 h2
    have e1 : (pipe1 p.1 b).toNat = p.1.toNat + b.toNat := by rw [pipe1_toNat]; omega
    have e2 : (pipe2 p.2 (pipe1 p.1 b)).toNat = p.2.toNat + (p.1.toNat + b.toNat) := by
      rw [pipe2_toNat, e1]; omega
    have := ih (pipe1 p.1 b, pipe2 p.2 (pipe1 p.1 b))
      (by simp only [e1]; omega) (by simp only [e1, e2, Nat.mul_add]; omega)
    simp only [e1, e2, Nat.mul_add] at this
    simp only [pipes, byteSum, weightedSum, List.length_cons, Nat.add_mul, Nat.one_mul]
    omega

theorem byteSum_le (bs : List Byte) : byteSum bs ≤ 255 * bs.length := by
  induction bs with
  | nil => simp [byteSum]
  | cons b bs ih => have := b.isLt; simp only [byteSum, List.length_cons]; omega

/-- Twice the weighted sum, to keep clear of a division (40_datapath.md rule R87). -/
theorem two_weightedSum_le (bs : List Byte) : 2 * weightedSum bs ≤ 255 * (bs.length * (bs.length + 1)) := by
  induction bs with
  | nil => simp [weightedSum]
  | cons b bs ih =>
    have hb : b.toNat ≤ 255 := by have := b.isLt; omega
    have := Nat.mul_le_mul_left (bs.length + 1) hb
    simp only [weightedSum, List.length_cons]
    nlinarith

/-- The naive fold in closed form (40_datapath.md rules R88, R89). -/
theorem nfold_mod (a c : Nat) (bs : List Byte) :
    nfold (a % 65521, c % 65521) bs
      = ((a + byteSum bs) % 65521, (c + bs.length * a + weightedSum bs) % 65521) := by
  induction bs generalizing a c with
  | nil => simp [nfold, byteSum, weightedSum]
  | cons b bs ih =>
    have e : nstep (a % 65521, c % 65521) b = ((a + b.toNat) % 65521, (c + (a + b.toNat)) % 65521) := by
      simp only [nstep, Prod.mk.injEq]; omega
    rw [nfold, e, ih]
    simp only [byteSum, weightedSum, List.length_cons, Nat.add_mul, Nat.one_mul, Nat.mul_add, Prod.mk.injEq]
    constructor <;> congr 1 <;> omega

theorem nfold_append (p : Nat × Nat) (bs cs : List Byte) : nfold p (bs ++ cs) = nfold (nfold p bs) cs := by
  induction bs generalizing p with
  | nil => rfl
  | cons b bs ih => exact ih _

/-- The fold of a reduced pair is reduced (40_datapath.md rule R89). -/
theorem nfold_reduced {p : Nat × Nat} (hp : p.1 < 65521 ∧ p.2 < 65521) (bs : List Byte) :
    (nfold p bs).1 < 65521 ∧ (nfold p bs).2 < 65521 := by
  have h := nfold_mod p.1 p.2 bs
  rw [Nat.mod_eq_of_lt hp.1, Nat.mod_eq_of_lt hp.2] at h
  rw [h]
  exact ⟨Nat.mod_lt _ (by decide), Nat.mod_lt _ (by decide)⟩

/-- The state after `n` bytes of the range have been consumed, whatever the working registers then hold. -/
def State.consumed (s : State) (n : Nat) (w1 w2 : Word) : State :=
  { s with
    w1 := w1, w2 := w2, pos := s.pos + BitVec.ofNat 32 n, rem := s.rem - BitVec.ofNat 32 n
    reads := s.reads ++ List.range' s.pos.toNat n }

@[simp] theorem consumed_bound (s : State) (n : Nat) (a b : Word) : (s.consumed n a b).bound = s.bound := rfl
@[simp] theorem consumed_w1 (s : State) (n : Nat) (a b : Word) : (s.consumed n a b).w1 = a := rfl
@[simp] theorem consumed_w2 (s : State) (n : Nat) (a b : Word) : (s.consumed n a b).w2 = b := rfl

theorem consumed_pos_toNat {s : State} {n : Nat} (a b : Word) (h : s.pos.toNat + n ≤ s.bound.len.toNat) :
    (s.consumed n a b).pos.toNat = s.pos.toNat + n := by
  have := s.bound.len.isLt
  simp only [State.consumed, BitVec.toNat_add, BitVec.toNat_ofNat]; omega

theorem consumed_rem_toNat {s : State} {n : Nat} (a b : Word) (h : n ≤ s.rem.toNat) :
    (s.consumed n a b).rem.toNat = s.rem.toNat - n := by
  have := s.rem.isLt
  simp only [State.consumed, BitVec.toNat_sub, BitVec.toNat_ofNat]; omega

theorem consumed_inRange {s : State} {n : Nat} (a b : Word) (h : InRange s) (hn : n ≤ s.rem.toNat) :
    InRange (s.consumed n a b) := by
  unfold InRange at *
  rw [consumed_rem_toNat a b hn, consumed_pos_toNat a b (by omega), consumed_bound]; omega

theorem consumed_setWork (s : State) (n : Nat) (a b c d : Word) :
    (s.consumed n a b).setWork c d = s.consumed n c d := rfl

theorem consumed_consumed {s : State} {m n : Nat} (a b c d : Word) (h : s.pos.toNat + m ≤ s.bound.len.toNat) :
    (s.consumed m a b).consumed n c d = s.consumed (m + n) c d := by
  have hp := consumed_pos_toNat a b h
  have e1 : s.pos + BitVec.ofNat 32 m + BitVec.ofNat 32 n = s.pos + BitVec.ofNat 32 (m + n) := by
    rw [BitVec.add_assoc, BitVec.ofNat_add]
  have e2 : s.rem - BitVec.ofNat 32 m - BitVec.ofNat 32 n = s.rem - BitVec.ofNat 32 (m + n) := by
    rw [BitVec.ofNat_add]; ring
  unfold State.consumed at hp ⊢
  simp only [hp, e1, e2, List.append_assoc, List.range'_append_1]

/-- The state after `n` STEPs over bytes that exist. -/
def stepped (n : Nat) (s : State) : State :=
  s.consumed n (pipes (s.w1, s.w2) (s.bound.bytes s.pos.toNat n)).1
    (pipes (s.w1, s.w2) (s.bound.bytes s.pos.toNat n)).2

/-- STEP at an index that exists (40_datapath.md rule R82). -/
theorem stepByte_eq {s : State} (h : s.pos.toNat < s.bound.len.toNat) : stepByte s = .next (stepped 1 s) := by
  have hb := (Buffer.read_eq_some_iff s.bound s.pos.toNat _).mpr ⟨h, rfl⟩
  simp only [stepByte, withByte, hb]; rfl

theorem stepped_add {m n : Nat} {s : State} (h : s.pos.toNat + m ≤ s.bound.len.toNat) :
    stepped n (stepped m s) = stepped (m + n) s := by
  have hp : (stepped m s).pos.toNat = s.pos.toNat + m := consumed_pos_toNat _ _ h
  have hw : pipes ((stepped m s).w1, (stepped m s).w2) ((stepped m s).bound.bytes (stepped m s).pos.toNat n)
      = pipes (s.w1, s.w2) (s.bound.bytes s.pos.toNat (m + n)) := by
    rw [hp, Buffer.bytes_add, pipes_append]; rfl
  rw [stepped, hw, stepped, consumed_consumed _ _ _ _ h]; rfl

/-- Everything a run of STEPs over bytes that exist can do. -/
theorem repeatOp_stepByte {n : Nat} {s : State} (h : s.pos.toNat + n ≤ s.bound.len.toNat) :
    repeatOp n stepByte s = .next (stepped n s) := by
  induction n generalizing s with
  | zero => simp [stepped, State.consumed, pipes]
  | succ n ih =>
    have hp : (stepped 1 s).pos.toNat = s.pos.toNat + 1 := consumed_pos_toNat _ _ (by omega)
    rw [repeatOp_succ, stepByte_eq (by omega), andThen_next,
      ih (by rw [hp, show (stepped 1 s).bound = s.bound from rfl]; omega),
      stepped_add (by omega), Nat.add_comm]

/-- GROUP16 over bytes that exist is a run of 16 STEPs (40_datapath.md rule R83). -/
theorem group16_eq {s : State} (h : s.pos.toNat + 16 ≤ s.bound.len.toNat) : group16 s = .next (stepped 16 s) :=
  repeatOp_stepByte h

end Sys2Proof.Machine
end

