-- ==== Sys2Proof/Laws/Decode.lean ====
section
/-! SUPPORT. Packet fields: four bytes and a 32-bit field, a field and the integer it denotes, the defined headers. -/

namespace Sys2Proof

theorem fieldOfBytes_toNat (b0 b1 b2 b3 : Byte) : (fieldOfBytes b0 b1 b2 b3).toNat
    = b0.toNat + 256 * b1.toNat + 65536 * b2.toNat + 16777216 * b3.toNat := by
  have h0 := b0.isLt; have h1 := b1.isLt; have h2 := b2.isLt; have h3 := b3.isLt
  simp only [fieldOfBytes, BitVec.toNat_append, Nat.shiftLeft_eq]
  rw [← Nat.shiftLeft_eq, ← Nat.shiftLeft_eq, ← Nat.shiftLeft_eq,
    ← Nat.shiftLeft_add_eq_or_of_lt h2, ← Nat.shiftLeft_add_eq_or_of_lt h1, ← Nat.shiftLeft_add_eq_or_of_lt h0]
  simp only [Nat.shiftLeft_eq]; omega

/-- The four bytes of a field, put together, are the field (30_encoding.md rule R63). -/
theorem fieldOfBytes_extract (x : Word) :
    fieldOfBytes (x.extractLsb' 0 8) (x.extractLsb' 8 8) (x.extractLsb' 16 8) (x.extractLsb' 24 8) = x := by
  apply BitVec.eq_of_toNat_eq
  have := x.isLt
  rw [fieldOfBytes_toNat]
  simp only [BitVec.extractLsb'_toNat, Nat.shiftRight_eq_div_pow]; omega

/-- The bytes of a field made of four bytes are those four (30_encoding.md rule R63). -/
theorem bytesOfField_fieldOfBytes (b0 b1 b2 b3 : Byte) :
    bytesOfField (fieldOfBytes b0 b1 b2 b3) = [b0, b1, b2, b3] := by
  have h0 := b0.isLt; have h1 := b1.isLt; have h2 := b2.isLt; have h3 := b3.isLt
  simp only [bytesOfField, List.cons.injEq, and_true]
  refine ⟨?_, ?_, ?_, ?_⟩ <;> apply BitVec.eq_of_toNat_eq <;>
    simp only [BitVec.extractLsb'_toNat, Nat.shiftRight_eq_div_pow, fieldOfBytes_toNat] <;> omega

/-- `int(x)` as a case split on the sign bit (30_encoding.md rule R64). -/
theorem intOfField_eq (x : Word) :
    intOfField x = (x.toNat : Int) - (if 2147483648 ≤ x.toNat then 4294967296 else 0) := by
  have := x.isLt
  simp only [intOfField, BitVec.extractLsb'_toNat, Nat.shiftRight_eq_div_pow]
  split <;> omega

/-- A field denotes an integer that fits a field, and every such integer (30_encoding.md rule R64). -/
theorem fitsField_intOfField (x : Word) : fitsField (intOfField x) = true := by
  have := x.isLt
  rw [intOfField_eq]
  simp only [fitsField, Bool.and_eq_true, decide_eq_true_eq]
  split <;> omega

theorem intOfField_fieldOfInt {x : Int} (h : fitsField x = true) : intOfField (fieldOfInt x) = x := by
  simp only [fitsField, Bool.and_eq_true, decide_eq_true_eq] at h
  rw [intOfField_eq]
  simp only [fieldOfInt, BitVec.toNat_ofInt]
  split <;> omega

theorem fieldOfInt_intOfField (x : Word) : fieldOfInt (intOfField x) = x := by
  have := x.isLt
  apply BitVec.eq_of_toNat_eq
  simp only [fieldOfInt, BitVec.toNat_ofInt, intOfField_eq]
  split <;> omega

/-- The three defined headers (30_encoding.md rule R65); every other byte is reserved (rule R66). -/
theorem packetLength_eq_none_iff (h : Byte) : packetLength h = none ↔ 3 ≤ h.toNat := by
  revert h; decide

/-- A nine-byte packet with UPDATE's header (30_encoding.md rule R63). -/
theorem decode_update (o0 o1 o2 o3 l0 l1 l2 l3 : Byte) : decode [0x01, o0, o1, o2, o3, l0, l1, l2, l3]
    = .ok (.update (intOfField (fieldOfBytes o0 o1 o2 o3)) (intOfField (fieldOfBytes l0 l1 l2 l3))) := rfl

/-- Every packet that decodes is one of the three forms (30_encoding.md rule R65). -/
theorem decode_cases {p : List Byte} {i : Instr} (h : decode p = .ok i) :
    (p = [0x00] ∧ i = .reset) ∨ (p = [0x02] ∧ i = .finalize) ∨
    ∃ o0 o1 o2 o3 l0 l1 l2 l3, p = [0x01, o0, o1, o2, o3, l0, l1, l2, l3] ∧
      i = .update (intOfField (fieldOfBytes o0 o1 o2 o3)) (intOfField (fieldOfBytes l0 l1 l2 l3)) := by
  have headers : ∀ x : Byte, 3 ≤ x.toNat ∨ x = 0x00 ∨ x = 0x01 ∨ x = 0x02 := by decide
  match p with
  | [] => exact nomatch h
  | x :: rest =>
    rcases headers x with hx | rfl | rfl | rfl
    · simp [decode, (packetLength_eq_none_iff x).mpr hx] at h
    · cases rest with
      | nil => exact .inl ⟨rfl, (Except.ok.inj h).symm⟩
      | cons a l =>
        simp only [decode, show packetLength 0x00 = some 1 by decide] at h
        simp at h
    · simp only [decode, show packetLength 0x01 = some 9 by decide] at h
      split at h
      · exact nomatch h
      · split at h
        · exact nomatch h
        · rename_i h1 h2
          have hl : rest.length = 8 := by simp only [List.length_cons] at h1 h2; omega
          match rest, hl with
          | [o0, o1, o2, o3, l0, l1, l2, l3], _ =>
            exact .inr (.inr ⟨o0, o1, o2, o3, l0, l1, l2, l3, rfl, (Except.ok.inj h).symm⟩)
    · cases rest with
      | nil => exact .inr (.inl ⟨rfl, (Except.ok.inj h).symm⟩)
      | cons a l =>
        simp only [decode, show packetLength 0x02 = some 1 by decide] at h
        simp at h

end Sys2Proof
end

