-- ==== Sys2Proof/Laws/PerInstr.lean ====
section
/-! SUPPORT. Statements per command, about the command as syntax. -/

namespace Sys2Proof.Laws.HeaderLength

/-- The encoder's packet starts with a defined header, and its length is the one that header gives (30_encoding.md rules
R65, R67). -/
def Statement (i : Instr) : Prop :=
  ∃ h rest, encode i = h :: rest ∧ h.toNat ≤ 2 ∧ packetLength h = some (encode i).length

theorem reset : Statement .reset := ⟨_, _, rfl, by decide, by decide⟩

theorem update (offset length : Int) : Statement (.update offset length) := ⟨_, _, rfl, by decide, rfl⟩

theorem finalize : Statement .finalize := ⟨_, _, rfl, by decide, by decide⟩

end Sys2Proof.Laws.HeaderLength
end

