-- ==== Sys2Proof/Laws/Update.lean ====
section
/-! SUPPORT. What the paths of UPDATE can do, and UPDATE itself, said once. -/

namespace Sys2Proof.Machine

/-- MOD on both working sums. -/
def reduceW (p : Word × Word) : Word × Word := (modulo p.1, modulo p.2)

/-- The working sums after a run of STEPs and MOD on both: one chunk, or the tail of the bulk path. -/
def chunkW (p : Word × Word) (bs : List Byte) : Word × Word := reduceW (pipes p bs)

/-- The working sums after `m` full chunks. -/
def chunksW : Nat → Word × Word → List Byte → Word × Word
  | 0, p, _ => p
  | m + 1, p, bs => chunksW m (chunkW p (bs.take 5552)) (bs.drop 5552)

/-- The working sums after the single-byte path. -/
def singleW (p : Word × Word) : List Byte → Word × Word
  | [] => p
  | b :: _ => (csub (pipe1 p.1 b), csub (pipe2 p.2 (csub (pipe1 p.1 b))))

/-- The working sums after the short path. -/
def shortW (p : Word × Word) (bs : List Byte) : Word × Word := (csub (pipes p bs).1, modulo (pipes p bs).2)

/-- The working sums after the bulk path over `n` bytes. -/
def bulkW (n : Nat) (p : Word × Word) (bs : List Byte) : Word × Word :=
  chunkW (chunksW (n / 5552) p (bs.take (n / 5552 * 5552))) (bs.drop (n / 5552 * 5552))

/-- The working sums after the path that `n` bytes take. -/
def pathW (n : Nat) : Word × Word → List Byte → Word × Word :=
  if n = 1 then singleW else if n < 16 then shortW else bulkW n

/-- From `s`, `o` goes on with exactly `n` bytes consumed and the working sums that `f` gives on them, which from reduced
working sums are their naive fold. -/
def Folds (s : State) (n : Nat) (f : Word × Word → List Byte → Word × Word) (o : Result) : Prop :=
  o = .next (s.consumed n (f (s.w1, s.w2) (s.bound.bytes s.pos.toNat n)).1 (f (s.w1, s.w2) (s.bound.bytes s.pos.toNat n)).2) ∧
  (s.w1.toNat ≤ 65520 → s.w2.toNat ≤ 65520 →
    ((f (s.w1, s.w2) (s.bound.bytes s.pos.toNat n)).1.toNat, (f (s.w1, s.w2) (s.bound.bytes s.pos.toNat n)).2.toNat)
      = nfold s.work (s.bound.bytes s.pos.toNat n))

/-- Folding `m` bytes and then `n` more folds `m + n`. -/
theorem Folds.andThen {s : State} {m n : Nat} {f g : Word × Word → List Byte → Word × Word} {o : Result}
    {k : State → Result} (hm : s.pos.toNat + m ≤ s.bound.len.toNat) (ho : Folds s m f o)
    (hk : ∀ w1 w2, Folds (s.consumed m w1 w2) n g (k (s.consumed m w1 w2))) :
    Folds s (m + n) (fun p bs => g (f p (bs.take m)) (bs.drop m)) (andThen o k) := by
  obtain ⟨hab, hfold⟩ := ho
  have ht : (s.bound.bytes s.pos.toNat (m + n)).take m = s.bound.bytes s.pos.toNat m := by
    rw [Buffer.bytes_add, List.take_append_of_le_length (by simp), List.take_of_length_le (by simp)]
  have hd : (s.bound.bytes s.pos.toNat (m + n)).drop m = s.bound.bytes (s.pos.toNat + m) n := by
    rw [Buffer.bytes_add]; exact List.drop_left' (by simp)
  generalize hp : f (s.w1, s.w2) (s.bound.bytes s.pos.toNat m) = p at hab hfold
  obtain ⟨hcd, hfold'⟩ := hk p.1 p.2
  rw [consumed_pos_toNat p.1 p.2 hm] at hcd hfold'
  refine ⟨?_, fun h1 h2 => ?_⟩ <;> simp only [ht, hd, hp]
  · rw [hab, andThen_next, hcd, consumed_consumed _ _ _ _ hm]; rfl
  · have hs := hfold h1 h2
    have hr := nfold_reduced (p := s.work) ⟨by simp [State.work]; omega, by simp [State.work]; omega⟩
      (s.bound.bytes s.pos.toNat m)
    rw [← hs] at hr
    have := hfold' (by simpa using Nat.le_of_lt_succ hr.1) (by simpa using Nat.le_of_lt_succ hr.2)
    rw [Buffer.bytes_add, nfold_append, ← hs]
    exact this

/-- A run of at most MAX_BLOCK STEPs holds the exact sums of its bytes, below 2^32 (40_datapath.md rule R87). -/
theorem stepped_toNat {s : State} {n : Nat} (hn : n ≤ 5552) (h1 : s.w1.toNat ≤ 65520) (h2 : s.w2.toNat ≤ 65520) :
    (stepped n s).w1.toNat = s.w1.toNat + byteSum (s.bound.bytes s.pos.toNat n) ∧
    (stepped n s).w2.toNat = s.w2.toNat + n * s.w1.toNat + weightedSum (s.bound.bytes s.pos.toNat n) ∧
    (stepped n s).w1.toNat ≤ 65520 + 255 * n ∧
    2 * (stepped n s).w2.toNat ≤ 131040 * (n + 1) + 255 * (n * (n + 1)) := by
  have b1 := byteSum_le (s.bound.bytes s.pos.toNat n)
  have b2 := two_weightedSum_le (s.bound.bytes s.pos.toNat n)
  rw [Buffer.bytes_length] at b1 b2
  have m1 : n * s.w1.toNat ≤ n * 65520 := Nat.mul_le_mul_left n h1
  have m2 : n * (n + 1) ≤ 5552 * 5553 := Nat.mul_le_mul hn (by omega)
  have h := pipes_toNat (s.w1, s.w2) (s.bound.bytes s.pos.toNat n)
    (by simp only; omega) (by simp only [Buffer.bytes_length]; omega)
  rw [Buffer.bytes_length] at h
  simp only [stepped, consumed_w1, consumed_w2]
  refine ⟨h.1, h.2, ?_, ?_⟩
  · rw [h.1]; simp only; omega
  · rw [h.2]; simp only; omega

/-- A run of at most MAX_BLOCK STEPs and then reductions that reach the remainders folds its bytes. -/
theorem folds_stepped {s : State} {n : Nat} {r1 r2 : Word → Word} (hn : n ≤ 5552)
    (hr1 : s.w1.toNat ≤ 65520 → s.w2.toNat ≤ 65520 →
      (r1 (stepped n s).w1).toNat = (stepped n s).w1.toNat % 65521)
    (hr2 : s.w1.toNat ≤ 65520 → s.w2.toNat ≤ 65520 →
      (r2 (stepped n s).w2).toNat = (stepped n s).w2.toNat % 65521) :
    Folds s n (fun p bs => (r1 (pipes p bs).1, r2 (pipes p bs).2))
      (.next ((stepped n s).setWork (r1 (stepped n s).w1) (r2 (stepped n s).w2))) := by
  refine ⟨rfl, fun h1 h2 => ?_⟩
  obtain ⟨e1, e2, -, -⟩ := stepped_toNat hn h1 h2
  have h := nfold_mod s.w1.toNat s.w2.toNat (s.bound.bytes s.pos.toNat n)
  rw [Nat.mod_eq_of_lt (by omega), Nat.mod_eq_of_lt (by omega), Buffer.bytes_length] at h
  have q1 := hr1 h1 h2
  have q2 := hr2 h1 h2
  rw [e1] at q1
  rw [e2] at q2
  rw [State.work, h]
  exact Prod.ext q1 q2

/-- The `while REM ≥ 1: STEP` loop consumes everything that is left (42_update.md rules R117, R119). -/
theorem whileRem_stepByte {s : State} (h : InRange s) :
    whileRem 1 stepByte s.rem.toNat s = .next (stepped s.rem.toNat s) := by
  rw [whileRem_eq_repeatOp (by decide) (fun t ht hr => ?_) _ s h (Nat.le_refl _), Nat.div_one,
    repeatOp_stepByte h]
  unfold InRange at ht
  exact ⟨_, stepByte_eq (by omega), consumed_inRange _ _ ht hr, consumed_rem_toNat _ _ hr⟩

/-- The `while REM ≥ 16: GROUP16` loop consumes every full group (42_update.md rule R119). -/
theorem whileRem_group16 {s : State} (h : InRange s) :
    whileRem 16 group16 s.rem.toNat s = repeatOp (s.rem.toNat / 16) group16 s :=
  whileRem_eq_repeatOp (by decide) (fun t ht hr => by
    unfold InRange at ht
    exact ⟨_, group16_eq (by omega), consumed_inRange _ _ ht hr, consumed_rem_toNat _ _ hr⟩) _ s h (Nat.le_refl _)

theorem reduceBoth_stepped (n : Nat) (s : State) : reduceBoth (stepped n s)
    = s.consumed n (modulo (stepped n s).w1) (modulo (stepped n s).w2) := rfl

/-- A chunk over bytes that exist is 5552 STEPs and a reduction of both sums (42_update.md rule R118). -/
theorem chunk_eq {s : State} (h : s.pos.toNat + 5552 ≤ s.bound.len.toNat) :
    chunk s = .next (reduceBoth (stepped 5552 s)) := by
  have e : Config.groupsPerBlock * Config.group = 5552 := by decide
  rw [chunk, show group16 = repeatOp Config.group stepByte from rfl, repeatOp_mul, e, repeatOp_stepByte h,
    andThen_next]

theorem folds_chunk {s : State} (h : s.pos.toNat + 5552 ≤ s.bound.len.toNat) : Folds s 5552 chunkW (chunk s) := by
  rw [chunk_eq h]
  exact folds_stepped (Nat.le_refl _) (fun _ _ => modulo_toNat _) (fun _ _ => modulo_toNat _)

/-- The `while REM ≥ 5552` loop runs every full chunk (42_update.md rule R118). -/
theorem whileRem_chunk {s : State} (h : InRange s) :
    whileRem 5552 chunk s.rem.toNat s = repeatOp (s.rem.toNat / 5552) chunk s :=
  whileRem_eq_repeatOp (by decide) (fun t ht hr => by
    unfold InRange at ht
    refine ⟨_, chunk_eq (by omega), ?_⟩
    rw [reduceBoth_stepped]
    exact ⟨consumed_inRange _ _ ht hr, consumed_rem_toNat _ _ hr⟩) _ s h (Nat.le_refl _)

theorem folds_chunks {s : State} {m : Nat} (h : s.pos.toNat + m * 5552 ≤ s.bound.len.toNat) :
    Folds s (m * 5552) (chunksW m) (repeatOp m chunk s) := by
  induction m generalizing s with
  | zero => exact ⟨by simp [State.consumed, chunksW], fun _ _ => by simp [nfold, State.work, chunksW]⟩
  | succ m ih =>
    rw [Nat.succ_mul, Nat.add_comm] at h ⊢
    refine Folds.andThen (by omega) (folds_chunk (by omega)) fun a b => ih ?_
    rw [consumed_pos_toNat a b (by omega), consumed_bound]; omega

/-- The tail of the bulk path, fewer than MAX_BLOCK bytes: groups, leftover STEPs, both reductions (42_update.md rule
R119). -/
theorem bulkTail_eq {t : State} (h : InRange t) :
    (andThen (whileRem Config.group group16 t.rem.toNat t) fun u =>
      andThen (whileRem 1 stepByte u.rem.toNat u) fun v => .next (reduceBoth v))
    = .next (reduceBoth (stepped t.rem.toNat t)) := by
  have hd := Nat.div_add_mod t.rem.toNat 16
  have hr : t.rem.toNat / 16 * 16 ≤ t.rem.toNat := by omega
  have hb : t.pos.toNat + t.rem.toNat / 16 * 16 ≤ t.bound.len.toNat := by unfold InRange at h; omega
  have e : repeatOp (t.rem.toNat / 16) group16 t = .next (stepped (t.rem.toNat / 16 * 16) t) := by
    rw [show group16 = repeatOp 16 stepByte from rfl, repeatOp_mul, repeatOp_stepByte hb]
  have hu : InRange (stepped (t.rem.toNat / 16 * 16) t) := consumed_inRange _ _ h hr
  have er : (stepped (t.rem.toNat / 16 * 16) t).rem.toNat = t.rem.toNat - t.rem.toNat / 16 * 16 :=
    consumed_rem_toNat _ _ hr
  rw [show Config.group = 16 from rfl, whileRem_group16 h, e, andThen_next, whileRem_stepByte hu, andThen_next, er,
    stepped_add hb, show t.rem.toNat / 16 * 16 + (t.rem.toNat - t.rem.toNat / 16 * 16) = t.rem.toNat by omega]

/-- Single-byte path (42_update.md rule R116). -/
theorem folds_singlePath {s : State} (h : s.pos.toNat < s.bound.len.toNat) : Folds s 1 singleW (singlePath s) := by
  have hb := (Buffer.read_eq_some_iff s.bound s.pos.toNat _).mpr ⟨h, rfl⟩
  refine ⟨by simp only [singlePath, withByte, hb]; rfl, fun h1 h2 => ?_⟩
  have hx := (Memory.read s.bound.cells s.pos.toNat).isLt
  rw [Buffer.bytes_succ, Buffer.bytes_zero]
  generalize Memory.read s.bound.cells s.pos.toNat = x at hx
  have p1 : (pipe1 s.w1 x).toNat = s.w1.toNat + x.toNat := by rw [pipe1_toNat]; omega
  have c1 := csub_toNat_eq_mod (v := pipe1 s.w1 x) (by omega)
  have p2 : (pipe2 s.w2 (csub (pipe1 s.w1 x))).toNat = s.w2.toNat + (s.w1.toNat + x.toNat) % 65521 := by
    rw [pipe2_toNat, c1, p1]; omega
  have c2 := csub_toNat_eq_mod (v := pipe2 s.w2 (csub (pipe1 s.w1 x))) (by omega)
  rw [singleW, c1, c2, p1, p2]
  rfl

/-- Short path, for every length it can take (42_update.md rule R117). -/
theorem folds_shortPath {s : State} (h : InRange s) (hn : s.rem.toNat ≤ 15) :
    Folds s s.rem.toNat shortW (shortPath s) := by
  rw [shortPath, whileRem_stepByte h, andThen_next]
  exact folds_stepped (r1 := csub) (by omega)
    (fun h1 h2 => csub_toNat_eq_mod (by have := (stepped_toNat (n := s.rem.toNat) (by omega) h1 h2).2.2.1; omega))
    (fun _ _ => modulo_toNat _)

/-- Bulk path, for every length (42_update.md rules R118, R119). -/
theorem folds_bulkPath {s : State} (h : InRange s) : Folds s s.rem.toNat (bulkW s.rem.toNat) (bulkPath s) := by
  have hr : s.rem.toNat / 5552 * 5552 ≤ s.rem.toNat := by omega
  have hb : s.pos.toNat + s.rem.toNat / 5552 * 5552 ≤ s.bound.len.toNat := by unfold InRange at h; omega
  have key : Folds s (s.rem.toNat / 5552 * 5552 + s.rem.toNat % 5552) (bulkW s.rem.toNat) (bulkPath s) := by
    rw [bulkPath, show Config.maxBlock = 5552 from rfl, whileRem_chunk h]
    refine Folds.andThen hb (folds_chunks hb) fun a b => ?_
    have hu := consumed_inRange a b h hr
    have er := consumed_rem_toNat a b hr
    rw [bulkTail_eq hu, er, show s.rem.toNat - s.rem.toNat / 5552 * 5552 = s.rem.toNat % 5552 by omega]
    exact folds_stepped (by omega) (fun _ _ => modulo_toNat _) (fun _ _ => modulo_toNat _)
  rwa [show s.rem.toNat / 5552 * 5552 + s.rem.toNat % 5552 = s.rem.toNat by omega] at key

/-- LOADW of a range inside the buffer (40_datapath.md rule R90). -/
theorem loadw_of_guard {offset length : Int} {s : State} (h0 : 0 ≤ offset) (h1 : 0 ≤ length)
    (h2 : offset + length ≤ s.bound.len.toNat) :
    (loadw offset length s).pos.toNat = offset.toNat ∧ (loadw offset length s).rem.toNat = length.toNat ∧
    (loadw offset length s).work = s.sums ∧ (loadw offset length s).bound = s.bound ∧
    InRange (loadw offset length s) := by
  have hl := s.bound.len.isLt
  have e1 : (loadw offset length s).pos.toNat = offset.toNat := unsignedOperand_toNat h0 (by omega)
  have e2 : (loadw offset length s).rem.toNat = length.toNat := unsignedOperand_toNat h1 (by omega)
  refine ⟨e1, e2, by simp [loadw, State.work, State.sums], rfl, ?_⟩
  unfold InRange
  rw [e1, e2, show (loadw offset length s).bound = s.bound from rfl]; omega

/-- The path chosen by LENGTH folds the whole range: from reduced sums it leaves their naive fold (42_update.md rules R115
to R119, R121). -/
theorem folds_pathFor {offset length : Int} {s : State} (h0 : 0 ≤ offset) (h1 : 1 ≤ length)
    (h2 : offset + length ≤ s.bound.len.toNat) :
    Folds (loadw offset length s) length.toNat (pathW length.toNat) (pathFor length (loadw offset length s)) := by
  obtain ⟨e1, e2, -, eb, hr⟩ := loadw_of_guard h0 (by omega) h2
  unfold pathFor pathW
  simp only [show (length < (Config.shortLimit : Nat)) ↔ length.toNat < 16 by simp only [Config.shortLimit]; omega,
    show (length = 1) ↔ length.toNat = 1 by omega]
  split
  · rename_i h
    rw [h]
    exact folds_singlePath (by rw [e1, eb]; omega)
  · split
    · rw [← e2]; exact folds_shortPath hr (by omega)
    · rw [← e2]; exact folds_bulkPath hr

/-- The working sums UPDATE leaves for its exit, from the sub-sums and the bytes of its range alone. -/
def updateW (s : State) (offset length : Int) : Word × Word :=
  pathW length.toNat (zextSum s.s1, zextSum s.s2) (s.bound.bytes offset.toNat length.toNat)

/-- With no buffer bound there is no UPDATE (log entry 6). -/
theorem execUpdate_unbound (offset length : Int) {s : State} (h : s.buf = none) :
    execUpdate offset length s = .refused .noBuffer := by
  rw [execUpdate, h]

/-- Everything UPDATE can do with its buffer: the range does not lie in it, or is empty, or is folded (42_update.md rule
R110). -/
theorem execUpdate_cases (offset length : Int) {s : State} {b : Buffer} (h : s.buf = some b) :
    (¬ (0 ≤ offset ∧ 0 ≤ length ∧ offset + length ≤ s.bound.len.toNat) ∧
      execUpdate offset length s = .next (raiseOutOfRange s)) ∨
    (0 ≤ offset ∧ length = 0 ∧ offset ≤ s.bound.len.toNat ∧
      execUpdate offset length s = .next (s.endUpdate statusOk)) ∨
    (0 ≤ offset ∧ 1 ≤ length ∧ offset + length ≤ s.bound.len.toNat ∧
      pathFor length (loadw offset length s)
        = .next ((loadw offset length s).consumed length.toNat (updateW s offset length).1
            (updateW s offset length).2) ∧
      execUpdate offset length s
        = .next (finishUpdate ((loadw offset length s).consumed length.toNat (updateW s offset length).1
            (updateW s offset length).2)) ∧
      (s.s1.toNat ≤ 65520 → s.s2.toNat ≤ 65520 →
        ((updateW s offset length).1.toNat, (updateW s offset length).2.toNat)
          = nfold s.sums (s.bound.bytes offset.toNat length.toNat))) := by
  have hx : execUpdate offset length s = if guardOk offset length s.bound.len.toNat then
      if length = 0 then .next (s.endUpdate statusOk)
      else andThen (pathFor length (loadw offset length s)) fun t => .next (finishUpdate t)
      else .next (raiseOutOfRange s) := by
    rw [execUpdate, h, State.bound_eq h]
  by_cases hg : 0 ≤ offset ∧ 0 ≤ length ∧ offset + length ≤ s.bound.len.toNat
  · have hgb := (guardOk_iff offset length s.bound.len.toNat).mpr hg
    obtain ⟨h0, h1, h2⟩ := hg
    by_cases hz : length = 0
    · subst hz
      exact .inr (.inl ⟨h0, rfl, by omega, by rw [hx, if_pos hgb, if_pos rfl]⟩)
    · obtain ⟨e1, -, ew, eb, -⟩ := loadw_of_guard h0 h1 h2
      obtain ⟨hp, hf⟩ := folds_pathFor h0 (by omega) h2
      rw [e1, eb] at hp
      rw [e1, eb, ew] at hf
      refine .inr (.inr ⟨h0, by omega, h2, hp, ?_, fun a b => hf (by simpa [loadw] using a) (by simpa [loadw] using b)⟩)
      rw [hx, if_pos hgb, if_neg hz, hp, andThen_next]; rfl
  · refine .inl ⟨hg, ?_⟩
    rw [hx, if_neg (fun h => hg ((guardOk_iff _ _ _).mp h))]

end Sys2Proof.Machine
end

