-- ==== Sys2Proof/Laws/Step.lean ====
section
/-! SUPPORT. What a step can do, said once, and runs of steps. -/

namespace Sys2Proof.Machine

/-- A step that goes on found the block idle, took hardware reset, or ran a presented command. -/
theorem step_cases {s t : State} (h : step s = .next t) :
    (s.inputs = [] ∧ t = s) ∨
    (∃ cut rest, s.inputs = .hardwareReset cut :: rest ∧ t = hardwareReset (s.setInputs rest)) ∨
    (∃ c rest i, s.inputs = .command c :: rest ∧ decode c.packet = .ok i ∧ exec i (s.accept i c rest) = .next t) := by
  unfold step at h
  split at h
  · exact .inl ⟨‹_›, (Host.Outcome.next.inj h).symm⟩
  · exact .inr (.inl ⟨_, _, ‹_›, (Host.Outcome.next.inj h).symm⟩)
  · split at h
    · exact .inr (.inr ⟨_, _, _, ‹_›, ‹_›, h⟩)
    · exact nomatch h

/-- A run of `m + n` steps is a run of `m` and then one of `n`. -/
theorem runSteps_add (m n : Nat) (s : State) : runSteps (m + n) s = andThen (runSteps m s) (runSteps n) :=
  repeatOp_add m n step s

theorem runSteps_one (s : State) : runSteps 1 s = step s := by
  unfold runSteps; rw [repeatOp_succ]; cases step s <;> rfl

/-- The host's own run of the machine is `runSteps`. -/
theorem core_run_eq (n : Nat) (s : State) : Host.Core.run Sys2Proof.core n s = runSteps n s := by
  induction n generalizing s with
  | zero => rfl
  | succ n ih =>
    refine (Host.Core.run.eq_2 Sys2Proof.core s n).trans ?_
    unfold runSteps
    rw [repeatOp_succ, show Sys2Proof.core.step s = step s from rfl]
    cases step s with
    | next s' => exact ih s'
    | fault r => rfl
    | refused r => rfl

end Sys2Proof.Machine
end

