-- ==== Sys2Proof/Tests/Slice0.lean ====
section
/-! SUPPORT. The model's own tests, each with the vector of spec/95_test_vectors.md or the worked packet of
spec/30_encoding.md section 8 it takes its expected value from, and for every statement with hypotheses a concrete case
that meets them all together. -/

namespace Sys2Proof.Tests

open Sys2Proof Sys2Proof.Machine

/-- A small state: the sums, Accumulating, and a bound buffer. -/
def given (s1 s2 : Half) (bytes : List Byte) : State :=
  { State.reset with s1 := s1, s2 := s2, phase := .accumulating, buf := some (Buffer.ofBytes bytes) }

/-- The sums a command leaves. -/
def sumsAfter (i : Instr) (s : State) : Option (Nat × Nat) :=
  match exec i s with
  | .next t => some t.sums
  | _ => none

/-- The responses a command leaves, as bytes. -/
def responsesAfter (r : Result) : Option (List (List Byte)) :=
  match r with
  | .next t => some (t.responses.map fun x => x.status :: x.payload)
  | _ => none

/- WellFormed -/

/-- One below and one above the field's range, for each operand (30_encoding.md rule R64). -/
theorem test_wellFormed_refuses :
    Instr.wellFormed (.update (-2147483649) 0) = false ∧ Instr.wellFormed (.update 2147483648 0) = false ∧
    Instr.wellFormed (.update 0 (-2147483649)) = false ∧ Instr.wellFormed (.update 0 2147483648) = false := by decide

/-- Buffers out of canonical form, with a zero byte listed, or with a byte outside BUFLEN, are not well formed. -/
theorem test_buffer_wf_refuses :
    ¬ Buffer.wf ⟨9, [(2, 1), (1, 1)]⟩ ∧ ¬ Buffer.wf ⟨9, [(1, 1), (1, 2)]⟩ ∧ ¬ Buffer.wf ⟨9, [(1, 0)]⟩ ∧
    ¬ Buffer.wf ⟨9, [(9, 1)]⟩ ∧ Buffer.wf ⟨9, [(0, 1), (8, 255)]⟩ := by decide

/- Decoding: packets written out from 30_encoding.md rules R61 to R63 -/

/-- RESET: rsv = 000000, op = 00 (V50a). -/
theorem test_decode_reset : decode [0b00000000] = .ok .reset := by decide

/-- UPDATE: op = 01, OFFSET = 3, LENGTH = 6 (V50c). -/
theorem test_decode_update :
    decode [0b00000001, 0x03, 0x00, 0x00, 0x00, 0x06, 0x00, 0x00, 0x00] = .ok (.update 3 6) := by decide

/-- UPDATE with negative fields (V50d and section 8). -/
theorem test_decode_update_signed :
    decode [0x01, 0x02, 0, 0, 0, 0xFD, 0xFF, 0xFF, 0xFF] = .ok (.update 2 (-3)) ∧
    decode [0x01, 0xFF, 0xFF, 0xFF, 0xFF, 0x04, 0, 0, 0] = .ok (.update (-1) 4) := by decide

/-- FINALIZE: rsv = 000000, op = 10 (V50b). -/
theorem test_decode_finalize : decode [0b00000010] = .ok .finalize := by decide

/-- Reserved headers and byte strings that are no packet (V50f, V50g; log entry 6). -/
theorem test_decode_refuses :
    decode [0x03] = .error (.reservedHeader 0x03) ∧ decode [0x05] = .error (.reservedHeader 0x05) ∧
    decode [] = .error .emptyPacket ∧ decode [0x01, 0, 0, 0, 0, 1, 0, 0] = .error .truncatedPacket ∧
    decode [0x00, 0x00] = .error .overlongPacket := by decide

/-- The table's view: the 72 bits LENGTH ‖ OFFSET ‖ 00000001 of UPDATE, and its low byte alone. -/
theorem test_decodeTableWord :
    decodeTableWord 8 0x00 = some .reset ∧ decodeTableWord 8 0x02 = some .finalize ∧
    decodeTableWord 72 0x000000060000000301 = some (.update 3 6) ∧ decodeTableWord 8 0x01 = some (.update 0 0) ∧
    decodeTableWord 8 0x03 = none := by decide

/-- Presented right after reset, a packet is what the next step runs: UPDATE 3, 6 of the empty buffer is out of range. -/
theorem test_withFetchWord :
    responsesAfter (step (State.reset.withFetchWord 72 0x000000060000000301)) = some [[0x01]] ∧
    responsesAfter (step (State.reset.withFetchWord 8 0x02)) = some [[0x00, 0x01, 0x00, 0x00, 0x00]] := by decide

/- Commands -/

/-- V48c. -/
theorem test_reset_from_accumulating : sumsAfter .reset (given 65520 65520 []) = some (1, 0) := by decide

/-- V20: both subtractions taken, in the order add, CSUB, add, CSUB. -/
theorem test_update_single_both_subtractions :
    sumsAfter (.update 0 1) (given 65520 65520 [0xFF]) = some (254, 253) := by decide

/-- V13c: one GROUP16 and one STEP. -/
theorem test_update_bulk_seventeen :
    sumsAfter (.update 0 17) (given 1 0 (List.replicate 17 0xFF)) = some (4336, 39032) := by decide

/-- V49i: all four bytes distinct fixes the order. -/
theorem test_finalize_byte_order :
    responsesAfter (exec .finalize (given 0x1234 0xABCD [])) = some [[0x00, 0x34, 0x12, 0xCD, 0xAB]] := by decide

/- Shared operations -/

/-- V37b, V37c, V37g, V37h: CSUB where its clauses meet. -/
theorem test_csub_boundaries :
    csub 65520 = 65520 ∧ csub 65521 = 0 ∧ csub 131041 = 65520 ∧ csub 131042 = 65521 := by decide

/-- V38c, V38d, V38k, V38l. -/
theorem test_modulo_boundaries :
    modulo 65520 = 65520 ∧ modulo 65521 = 0 ∧ modulo 4294690200 = 50734 ∧ modulo 4294967295 = 224 := by decide

/-- V10: the short path over "abc". -/
theorem test_short_path_abc :
    sumsAfter (.update 0 3) (given 1 0 [0x61, 0x62, 0x63]) = some (295, 589) := by decide

/-- V40, V41, V42, V43, V44, V45, V46: the guard where its clauses meet. -/
theorem test_guard_boundaries :
    guardOk 9 0 9 = true ∧ guardOk 9 1 9 = false ∧ guardOk (-1) 4 9 = false ∧ guardOk 0 (-1) 9 = false ∧
    guardOk 2147483647 2147483647 2147483647 = false ∧ guardOk 10 0 9 = false ∧ guardOk 0 0 0 = true ∧
    guardOk 0 1 0 = false ∧ guardOk 1 0 0 = false := by decide

/- Witnesses: a concrete case for the hypotheses of each statement that has any -/

/-- MaxBlockIsLargestSafeLength: both sides of the bound (V4). -/
theorem witness_MaxBlockIsLargestSafeLength :
    255 * 5552 * (5552 + 1) / 2 + (5552 + 1) * (65521 - 1) = 4294690200 ∧
    255 * 5553 * (5553 + 1) / 2 + (5553 + 1) * (65521 - 1) = 4296171735 := by decide

theorem witness_ModulusIsLargestPrimeBelow65536 : 65521 < 65522 ∧ 65522 < 65536 ∧ 65521 < 65535 ∧ 65535 < 65536 := by
  decide

/-- HeaderGivesPacketLength, EncodeDecodeRoundTrip: one packet of each form. -/
theorem witness_EncodeDecodeRoundTrip :
    decode [0x00] = .ok .reset ∧ decode [0x02] = .ok .finalize ∧
    decode [0x01, 0, 0, 0, 0x80, 0xFF, 0xFF, 0xFF, 0x7F] = .ok (.update (-2147483648) 2147483647) := by decide

theorem witness_HeaderGivesPacketLength :
    packetLength 0 = some 1 ∧ packetLength 1 = some 9 ∧ packetLength 2 = some 1 ∧ packetLength 3 = none ∧
    packetLength 4 = none ∧ decode [0x02] = .ok .finalize := by decide

theorem witness_DecodeEncodeRoundTrip :
    Instr.wellFormed .reset = true ∧ Instr.wellFormed .finalize = true ∧
    Instr.wellFormed (.update (-2147483648) 2147483647) = true := by decide

/-- ReservedHeaderHasNoStep: the first and the last reserved header, presented; eight operand bytes. -/
theorem witness_ReservedHeaderHasNoStep :
    3 ≤ (0x03 : Byte).toNat ∧ 3 ≤ (0xFF : Byte).toNat ∧
    ({ State.reset with inputs := [.command ⟨[0x03], none⟩] } : State).inputs = .command ⟨0x03 :: [], none⟩ :: [] ∧
    [0xFF, 0xFF, 0xFF, 0xFF, (0xFF : Byte), 0xFF, 0xFF, 0xFF].length = 8 := by decide

/-- StepFoldsOneByte, StepsHaveClosedForm: the last byte of a buffer. -/
theorem witness_StepFoldsOneByte :
    let s := { given 1 0 [0x61] with rem := 1 }
    s.buf = some (Buffer.ofBytes [0x61]) ∧ (Buffer.ofBytes [0x61]).read s.pos.toNat = some 0x61 ∧ 1 ≤ s.rem.toNat := by decide

theorem witness_StepsHaveClosedForm :
    let b := Buffer.ofBytes [0x61, 0x62]
    let s := { given 1 0 [0x61, 0x62] with w1 := 1, rem := 2 }
    s.buf = some b ∧ 2 ≤ s.rem.toNat ∧ s.pos.toNat + 2 ≤ b.len.toNat ∧
    s.w1.toNat + byteSum (b.bytes s.pos.toNat 2) < 2 ^ 32 ∧
    s.w2.toNat + 2 * s.w1.toNat + weightedSum (b.bytes s.pos.toNat 2) < 2 ^ 32 := by decide

/-- SumsStayBelowOverflowBound, first clause: the largest reduced sums and the longest run. -/
theorem witness_SumsStayBelowOverflowBound :
    let b : Buffer := ⟨5552, []⟩
    let s := { State.reset with w1 := 65520, w2 := 65520, buf := some b }
    s.buf = some b ∧ 5552 ≤ 5552 ∧ s.w1.toNat ≤ 65520 ∧ s.w2.toNat ≤ 65520 ∧ s.pos.toNat + 5552 ≤ b.len.toNat := by decide

/-- SumsStayBelowOverflowBound, last clause: a buffer of 5553 bytes 0xFF. -/
theorem witness_SumsStayBelowOverflowBound_wrap : ∃ (s : State) (b : Buffer), s.buf = some b ∧ s.w1.toNat = 65520 ∧ s.w2.toNat = 65520 ∧
    s.pos.toNat + 5553 ≤ b.len.toNat ∧ b.bytes s.pos.toNat 5553 = List.replicate 5553 0xFF := by
  have key : ∀ n, n < 2 ^ 31 → (Buffer.ofBytes (List.replicate n 0xFF)).len.toNat = n ∧
      (Buffer.ofBytes (List.replicate n 0xFF)).bytes 0 n = List.replicate n 0xFF := fun n hn => by
    have h := Buffer.ofBytes_bytes (List.replicate n 0xFF)
    rw [List.length_replicate] at h
    refine ⟨?_, h⟩
    simp only [Buffer.ofBytes, List.length_replicate, BitVec.toNat_ofNat]
    exact Nat.mod_eq_of_lt hn
  obtain ⟨h1, h2⟩ := key 5553 (by decide)
  refine ⟨{ State.reset with w1 := 65520, w2 := 65520, buf := some (Buffer.ofBytes (List.replicate 5553 0xFF)) },
    _, rfl, rfl, rfl, ?_, h2⟩
  show 0 + 5553 ≤ (Buffer.ofBytes (List.replicate 5553 0xFF)).len.toNat
  rw [h1]

/-- OutOfRangeExactlyWhenGuardFails, FailedGuardChangesNothing, ErrorIsNotSticky: each disjunct at its boundary, and a
range that passes at the end of the buffer. -/
theorem witness_FailedGuardChangesNothing :
    let b := Buffer.ofBytes [1, 2, 3]
    let n := b.len.toNat
    (given 98 98 [1, 2, 3]).buf = some b ∧ (-1 : Int) < 0 ∧ ¬ (0 : Int) < 0 ∧ (2 : Int) + 2 > n ∧ ¬ (2 : Int) + 1 > n ∧
    (0 : Int) ≤ 2 ∧ (0 : Int) ≤ 1 ∧ (2 : Int) + 1 ≤ n ∧ Supplied .reset none ∧ Supplied (.update 0 1) (some b) := by decide

/-- ZeroLengthUpdateIsNoOp: OFFSET at 0 and at BUFLEN. -/
theorem witness_ZeroLengthUpdateIsNoOp :
    let b := Buffer.ofBytes [1, 2, 3]
    let n := b.len.toNat
    (given 98 98 [1, 2, 3]).buf = some b ∧
    (0 : Int) ≤ 0 ∧ (0 : Int) ≤ n ∧ (0 : Int) ≤ 3 ∧ (3 : Int) ≤ n := by decide

/-- SingleByteUpdateSubtractsOnce: the largest reduced sums. -/
theorem witness_SingleByteUpdateSubtractsOnce :
    let s := given 65520 65520 [0xFF]
    s.buf = some (Buffer.ofBytes [0xFF]) ∧ Reduced s ∧ (0 : Int) ≤ 0 ∧
    (Buffer.ofBytes [0xFF]).read (0 : Int).toNat = some 0xFF := by decide

/-- ShortUpdateReducesOnce: both ends of its range of lengths. -/
theorem witness_ShortUpdateReducesOnce :
    let b := Buffer.ofBytes (List.replicate 15 0xFF)
    let s := given 65520 65520 (List.replicate 15 0xFF)
    s.buf = some b ∧ Reduced s ∧ (0 : Int) ≤ 0 ∧ (2 : Int) ≤ 2 ∧ (2 : Int) ≤ 15 ∧ (13 : Int) + 2 ≤ b.len.toNat ∧
    (0 : Int) + 15 ≤ b.len.toNat := by decide

theorem witness_ChunkStaysBelowOverflowAndReduces :
    let b : Buffer := ⟨5552, []⟩
    let s := { State.reset with w1 := 65520, w2 := 65520, rem := 5552, buf := some b }
    s.buf = some b ∧ s.w1.toNat ≤ 65520 ∧ s.w2.toNat ≤ 65520 ∧ 5552 ≤ s.rem.toNat ∧ s.pos.toNat + 5552 ≤ b.len.toNat := by decide

/-- BulkPathLoopCounts: one chunk, one group and one leftover byte to go. -/
theorem witness_BulkPathLoopCounts :
    let b : Buffer := ⟨5569, []⟩
    let s := { State.reset with rem := 5569, buf := some b }
    s.buf = some b ∧ s.pos.toNat + s.rem.toNat ≤ b.len.toNat ∧ s.rem.toNat / 5552 = 1 ∧ s.rem.toNat % 5552 / 16 = 1 ∧
    s.rem.toNat % 16 = 1 := by decide

/-- UpdateExitState, PathsEqualNaiveFold, UpdateComputesNaiveFold, UpdateFrameAndReads: each path's shortest length, and 0
where it is allowed. -/
theorem witness_UpdateComputesNaiveFold :
    let b := Buffer.ofBytes (List.replicate 17 0xFF)
    let s := given 1 0 (List.replicate 17 0xFF)
    s.buf = some b ∧ Reduced s ∧ (0 : Int) ≤ 1 ∧ (0 : Int) ≤ 0 ∧ (1 : Int) ≤ 1 ∧ (1 : Int) ≤ 2 ∧ (1 : Int) ≤ 16 ∧ (15 : Int) ≤ 15 ∧
    (1 : Int) + 0 ≤ b.len.toNat ∧ (1 : Int) + 16 ≤ b.len.toNat := by decide

/-- UpdateDependsOnRangeOnly, NoBufferOutlivesItsUpdate (last clause): two buffers that differ outside the range only. -/
theorem witness_UpdateDependsOnRangeOnly :
    let s := given 1 0 [1, 2, 3]
    let t := given 1 0 [9, 2, 9]
    let b := Buffer.ofBytes [1, 2, 3]
    let c := Buffer.ofBytes [9, 2, 9]
    s.buf = some b ∧ t.buf = some c ∧ s.s1 = t.s1 ∧ s.s2 = t.s2 ∧ s.phase = t.phase ∧ b.len = c.len ∧ b ≠ c ∧
    ∀ a : Nat, (1 : Int) ≤ a → (a : Int) < 1 + 1 → b.read a = c.read a := by
  refine ⟨rfl, rfl, rfl, rfl, rfl, rfl, by decide, fun a h1 h2 => ?_⟩
  obtain rfl : a = 1 := by omega
  decide

/-- BufferIsNeverWritten: each micro-operation and path goes on from some state. -/
theorem witness_BufferIsNeverWritten :
    let one := { given 1 0 [0x61] with rem := 1 }
    let many := { given 1 0 (List.replicate 16 0x61) with rem := 16 }
    let big := { given 1 0 [] with rem := 5552, buf := some ⟨5552, []⟩ }
    (∃ t, stepByte one = .next t) ∧ (∃ t, singlePath one = .next t) ∧ (∃ t, shortPath one = .next t) ∧
    (∃ t, bulkPath one = .next t) ∧ (∃ t, group16 many = .next t) ∧ (∃ t, chunk big = .next t) ∧
    Supplied .reset none ∧ Supplied .finalize none ∧ Supplied (.update 0 1) one.buf :=
  ⟨⟨_, rfl⟩, ⟨_, rfl⟩, ⟨_, rfl⟩, ⟨_, rfl⟩, ⟨_, rfl⟩, ⟨_, chunk_eq (by decide)⟩, trivial, trivial, rfl⟩

/-- NoBufferOutlivesItsUpdate, first and second clause: an UPDATE with its buffer and a RESET wrongly given one, presented. -/
theorem witness_NoBufferOutlivesItsUpdate :
    let b := some (Buffer.ofBytes [0x61])
    let s := { State.reset with inputs := [.command ⟨[0x01, 0, 0, 0, 0, 1, 0, 0, 0], b⟩] }
    let t := { State.reset with inputs := [.command ⟨[0x00], b⟩] }
    s.inputs ≠ [] ∧ (∃ u, step s = .next u ∧ u.buf = none) ∧
    t.inputs = .command ⟨[0x00], b⟩ :: [] ∧ decode [0x00] = .ok .reset :=
  ⟨by decide, ⟨_, rfl, rfl⟩, rfl, by decide⟩

/-- UpdateWithoutBufferIsRefused: both clauses. -/
theorem witness_UpdateWithoutBufferIsRefused :
    let s := { State.reset with inputs := [.command ⟨[0x01, 0, 0, 0, 0, 1, 0, 0, 0], none⟩] }
    s.buf = none ∧ s.inputs = .command ⟨[0x01, 0, 0, 0, 0, 1, 0, 0, 0], none⟩ :: [] ∧
    decode [0x01, 0, 0, 0, 0, 1, 0, 0, 0] = .ok (.update 0 1) := by decide

/-- StepRunsDecodedCommand: a presented UPDATE that a step takes. -/
theorem witness_StepRunsDecodedCommand :
    let c : Presented := ⟨[0x01, 0, 0, 0, 0, 1, 0, 0, 0], some (Buffer.ofBytes [0x61])⟩
    let s := { State.reset with inputs := [.command c] }
    s.inputs = .command c :: [] ∧ decode c.packet = .ok (.update 0 1) ∧
    responsesAfter (step s) = some [[0x00]] := by decide

/-- ChunkingInvariance, SessionReturnsChecksum: "ab" from two buffers and from one (program P5, V8). -/
theorem witness_ChunkingInvariance :
    let parts : List UpdateCall := [⟨Buffer.ofBytes [0x61], 0, 1⟩, ⟨Buffer.ofBytes [0x62], 0, 1⟩]
    let whole : UpdateCall := ⟨Buffer.ofBytes [0x61, 0x62], 0, 2⟩
    Reduced State.reset ∧ (∀ c ∈ parts, c.inRange) ∧ whole.inRange ∧
    whole.bytes = parts.flatMap UpdateCall.bytes := by
  refine ⟨by decide, ?_, by decide, by decide⟩
  simp only [List.mem_cons, List.not_mem_nil, or_false]
  rintro c (rfl | rfl) <;> decide

/-- FinalizeShowsReducedSums, CommandsKeepSumsReduced: the largest reduced sums (V49e). OnlyTheRangeIsRead,
EveryCommandRespondsOnce, PhaseFollowsCommands, FinalizeIsNonDestructive: what is supplied for each command. -/
theorem witness_CommandsKeepSumsReduced :
    let s := given 65520 65520 []
    Reduced s ∧ Supplied .reset none ∧ Supplied (.update 0 0) s.buf ∧ Supplied .finalize none := by decide

/-- FinalizeIsDeterministic: two states that share only the sums. -/
theorem witness_FinalizeIsDeterministic :
    (given 98 98 [1]).s1 = (given 98 98 []).s1 ∧ (given 98 98 [1]).s2 = (given 98 98 []).s2 ∧
    given 98 98 [1] ≠ given 98 98 [] := by decide

theorem witness_IdleStepChangesNothing : State.reset.inputs = [] := rfl

/-- StepKeepsInvariant: a state that meets the invariant with a command presented, and the state its step leaves. -/
theorem witness_StepKeepsInvariant :
    let s := { State.reset with inputs := [.command ⟨[0x01, 0, 0, 0, 0, 1, 0, 0, 0], some (Buffer.ofBytes [0x61])⟩] }
    Inv s ∧ ∃ t, step s = .next t := by
  refine ⟨⟨by decide, by decide, rfl, fun _ h => (nomatch h), fun e he => ?_⟩, _, rfl⟩
  obtain rfl := List.mem_singleton.mp he
  rintro x ⟨⟩
  exact Buffer.ofBytes_wf [0x61] (by decide)

/-- HiddenStateNeverShows: two states that differ in every hidden register. -/
theorem witness_HiddenStateNeverShows :
    SameBlock State.reset { State.reset with w1 := 7, w2 := 8, pos := 9, rem := 10 } := by decide

end Sys2Proof.Tests
end

section
/-! Proofs about the hardwired constants, MODULUS (00_scope.md rule R5) and MAX_BLOCK (rule R6). -/
namespace Sys2Proof.Config

/-- The trial division of rule R5: every number above MODULUS and below 2^16 has one of these small divisors. -/
theorem exists_small_divisor_above_modulus {m : Nat} (hlo : modulus < m) (hhi : m < 65536) :
    ∃ d ∈ [2, 3, 5, 7, 13, 19], d ∣ m := by
  unfold modulus at hlo
  interval_cases m <;> decide

theorem not_prime_above_modulus {m : Nat} (hlo : modulus < m) (hhi : m < 65536) : ¬ Nat.Prime m := by
  obtain ⟨d, hd, hdvd⟩ := exists_small_divisor_above_modulus hlo hhi
  have hbounds : ∀ e ∈ [2, 3, 5, 7, 13, 19], 2 ≤ e ∧ e < modulus := by decide
  obtain ⟨htwo, hlt⟩ := hbounds d hd
  exact Nat.not_prime_of_dvd_of_lt hdvd htwo (hlt.trans hlo)

theorem prime_modulus : Nat.Prime modulus := by
  norm_num [modulus]

/-- The left side of rule R6's inequality: what the second sum can reach after `n` bytes without a reduction. -/
def overflowBound (n : Nat) : Nat := 255 * n * (n + 1) / 2 + (n + 1) * (modulus - 1)

theorem overflowBound_mono : Monotone overflowBound := by
  intro a b hab
  unfold overflowBound
  gcongr

theorem overflowBound_maxBlock : overflowBound maxBlock ≤ 2 ^ 32 - 1 := by decide

theorem overflowBound_succ_maxBlock : 2 ^ 32 - 1 < overflowBound (maxBlock + 1) := by decide

/-- The inequality of rule R6 changes its truth value once, between MAX_BLOCK and MAX_BLOCK + 1. -/
theorem overflowBound_le_iff {n : Nat} : overflowBound n ≤ 2 ^ 32 - 1 ↔ n ≤ maxBlock := by
  constructor
  · intro hle
    by_contra hn
    have hmono : overflowBound (maxBlock + 1) ≤ overflowBound n := overflowBound_mono (Nat.lt_of_not_le hn)
    exact (overflowBound_succ_maxBlock.trans_le hmono).not_ge hle
  · intro hn
    exact (overflowBound_mono hn).trans overflowBound_maxBlock

/-- Settles O1, by trial division on both sides of MODULUS. -/
theorem modulusIsLargestPrimeBelow65536 : Obligations.ModulusIsLargestPrimeBelow65536 :=
  ⟨rfl, prime_modulus, fun _ hlo hhi => not_prime_above_modulus hlo hhi⟩

/-- Settles O2: the left side of the inequality grows with the length, so its values at MAX_BLOCK and MAX_BLOCK + 1 decide. -/
theorem maxBlockIsLargestSafeLength : Obligations.MaxBlockIsLargestSafeLength :=
  ⟨rfl, rfl, fun _ => overflowBound_le_iff⟩

end Sys2Proof.Config
end

section
/-! What each command leaves, as one state: a command that has what it needs always completes, and its next state is
`completed`. The proofs about commands below speak of `completed` and never of the paths of UPDATE. -/
namespace Sys2Proof.Machine

/-- The range of an UPDATE lies in the bound buffer (42_update.md rule R112). -/
abbrev RangeInBound (offset length : Int) (s : State) : Prop :=
  0 ≤ offset ∧ 0 ≤ length ∧ offset + length ≤ s.bound.len.toNat

/-- An UPDATE passes its guard and has a byte to sum (42_update.md rules R112, R114). -/
abbrev AbsorbsBytes (offset length : Int) (s : State) : Prop :=
  0 ≤ offset ∧ 1 ≤ length ∧ offset + length ≤ s.bound.len.toNat

/-- After its path, STOREW and PHASE, before its response (42_update.md rule R120). -/
def absorbed (offset length : Int) (s : State) : State :=
  (storew ((loadw offset length s).consumed length.toNat (updateW s offset length).1
    (updateW s offset length).2)).setPhase phaseAfterBytes

/-- The status of an UPDATE (30_encoding.md rule R69). -/
def updateStatus (offset length : Int) (s : State) : Byte :=
  if RangeInBound offset length s then statusOk else statusOutOfRange

/-- The state UPDATE leaves, from a state with its buffer. -/
def updated (offset length : Int) (s : State) : State :=
  (if AbsorbsBytes offset length s then absorbed offset length s else s).endUpdate (updateStatus offset length s)

/-- The response record of a command (30_encoding.md rule R68). -/
def responseOf : Instr → State → Response
  | .reset, _ => ⟨statusOk, []⟩
  | .update offset length, s => ⟨updateStatus offset length s, []⟩
  | .finalize, s => ⟨statusOk, finalizePayload s⟩

/-- The state a command leaves, from a state with what it needs. -/
def completed : Instr → State → State
  | .reset, s => ((s.setSums 1 0).setPhase phaseAfterReset).respond statusOk []
  | .update offset length, s => updated offset length s
  | .finalize, s => s.respond statusOk (finalizePayload s)

variable {s : State} {offset length : Int}

@[simp] theorem absorbed_s1 : (absorbed offset length s).s1 = lowHalf (updateW s offset length).1 := rfl
@[simp] theorem absorbed_s2 : (absorbed offset length s).s2 = lowHalf (updateW s offset length).2 := rfl
@[simp] theorem absorbed_phase : (absorbed offset length s).phase = .accumulating := rfl
@[simp] theorem absorbed_inputs : (absorbed offset length s).inputs = s.inputs := rfl
@[simp] theorem absorbed_responses : (absorbed offset length s).responses = s.responses := rfl

theorem updated_of_absorbs (h : AbsorbsBytes offset length s) :
    updated offset length s = (absorbed offset length s).endUpdate statusOk := by
  have hr : RangeInBound offset length s := by
    obtain ⟨hoff, hpos, hlen⟩ := h
    exact ⟨hoff, by omega, hlen⟩
  rw [updated, if_pos h, updateStatus, if_pos hr]

theorem updated_of_not_absorbs (h : ¬ AbsorbsBytes offset length s) :
    updated offset length s = s.endUpdate (updateStatus offset length s) := by
  rw [updated, if_neg h]

theorem execUpdate_eq_updated {b : Buffer} (hb : s.buf = some b) :
    execUpdate offset length s = .next (updated offset length s) := by
  rcases execUpdate_cases offset length hb with
    ⟨hout, hexec⟩ | ⟨hoff, rfl, hlen, hexec⟩ | ⟨hoff, hpos, hlen, -, hexec, -⟩
  · have hstatus : updateStatus offset length s = statusOutOfRange := if_neg hout
    rw [hexec, updated_of_not_absorbs (by omega), hstatus]
    rfl
  · have hstatus : updateStatus offset 0 s = statusOk := if_pos (by omega)
    rw [hexec, updated_of_not_absorbs (by omega), hstatus]
  · rw [hexec, updated_of_absorbs ⟨hoff, hpos, hlen⟩]
    rfl

/-- From reduced sums the bytes an UPDATE sums leave their naive fold (42_update.md rules R111, R121). -/
theorem updateW_toNat (h : AbsorbsBytes offset length s) (hs : Reduced s) :
    ((updateW s offset length).1.toNat, (updateW s offset length).2.toNat)
      = nfold s.sums (s.bound.bytes offset.toNat length.toNat) := by
  obtain ⟨hoff, hpos, hlen⟩ := h
  obtain ⟨epos, -, ework, ebound, -⟩ := loadw_of_guard hoff (by omega) hlen
  obtain ⟨-, hfold⟩ := folds_pathFor hoff hpos hlen
  rw [epos, ebound, ework] at hfold
  exact hfold (by simp only [loadw_eq, zextSum_toNat]; omega) (by simp only [loadw_eq, zextSum_toNat]; omega)

/-- The sums stored at the end of an UPDATE are the naive fold of its range (42_update.md rule R111). -/
theorem absorbed_sums (h : AbsorbsBytes offset length s) (hs : Reduced s) :
    (absorbed offset length s).sums = nfold s.sums (s.bound.bytes offset.toNat length.toNat) := by
  have hw := updateW_toNat h hs
  obtain ⟨h1, h2⟩ := nfold_reduced (p := s.sums) hs (s.bound.bytes offset.toNat length.toNat)
  rw [← hw] at h1 h2 ⊢
  exact Prod.ext (lowHalf_toNat (h1.trans (by decide))) (lowHalf_toNat (h2.trans (by decide)))

theorem absorbed_reduced (h : AbsorbsBytes offset length s) (hs : Reduced s) : Reduced (absorbed offset length s) := by
  have hr := nfold_reduced (p := s.sums) hs (s.bound.bytes offset.toNat length.toNat)
  rwa [← absorbed_sums h hs] at hr

@[simp] theorem updated_phase : (updated offset length s).phase =
    if AbsorbsBytes offset length s then .accumulating else s.phase := by
  rw [updated, State.endUpdate_phase, apply_ite State.phase, absorbed_phase]

@[simp] theorem updated_inputs : (updated offset length s).inputs = s.inputs := by
  rw [updated, State.endUpdate_inputs, apply_ite State.inputs, absorbed_inputs, ite_self]

@[simp] theorem updated_responses :
    (updated offset length s).responses = s.responses ++ [⟨updateStatus offset length s, []⟩] := by
  rw [updated, State.endUpdate_responses, apply_ite State.responses, absorbed_responses, ite_self]

/-- A command that has what it needs completes. -/
theorem exec_of_supplied {i : Instr} (h : Supplied i s.buf) : exec i s = .next (completed i s) := by
  cases i with
  | reset => rfl
  | update offset length =>
    obtain ⟨b, hb⟩ := Option.isSome_iff_exists.mp h
    exact execUpdate_eq_updated hb
  | finalize => rfl

/-- Only an UPDATE without its buffer lacks what it needs (log entry 6). -/
theorem exec_of_not_supplied {i : Instr} (h : ¬ Supplied i s.buf) : exec i s = .refused .noBuffer := by
  cases i with
  | reset => exact absurd trivial h
  | update offset length => exact execUpdate_unbound offset length (Option.not_isSome_iff_eq_none.mp h)
  | finalize => exact absurd trivial h

/-- A command that goes on leaves `completed`. -/
theorem eq_completed_of_exec_eq_next {i : Instr} {t : State} (h : exec i s = .next t) : t = completed i s := by
  by_cases hi : Supplied i s.buf
  · rw [exec_of_supplied hi] at h
    exact (Host.Outcome.next.inj h).symm
  · rw [exec_of_not_supplied hi] at h
    exact nomatch h

@[simp] theorem completed_inputs (i : Instr) (s : State) : (completed i s).inputs = s.inputs := by
  cases i with
  | reset => rfl
  | update offset length => exact updated_inputs
  | finalize => rfl

@[simp] theorem completed_responses (i : Instr) (s : State) :
    (completed i s).responses = s.responses ++ [responseOf i s] := by
  cases i with
  | reset => rfl
  | update offset length => exact updated_responses
  | finalize => rfl

/-- An accepted command leaves no buffer bound (20_memory.md rule R40). -/
theorem completed_accept_buf (i : Instr) (s : State) (c : Presented) (rest : List HostEvent) :
    (completed i (s.accept i c rest)).buf = none := by
  cases i <;> rfl

theorem reduced_of_initial_sums (h1 : s.s1 = 1) (h2 : s.s2 = 0) : Reduced s := by
  rw [Reduced, h1, h2]
  decide

theorem acc_of_initial_sums (h1 : s.s1 = 1) (h2 : s.s2 = 0) : s.acc = 0x00000001 := by
  rw [State.acc, h1, h2]
  rfl

theorem completed_reduced (i : Instr) (hs : Reduced s) : Reduced (completed i s) := by
  cases i with
  | reset => exact reduced_of_initial_sums rfl rfl
  | update offset length =>
    rw [completed]
    by_cases h : AbsorbsBytes offset length s
    · rw [updated_of_absorbs h]
      exact absorbed_reduced h hs
    · rw [updated_of_not_absorbs h]
      exact hs
  | finalize => exact hs

/-- The sums leave their initial values only together with PHASE (10_state.md rule R24). -/
theorem completed_freshIsInitial (i : Instr) (hs : FreshIsInitial s) : FreshIsInitial (completed i s) := by
  cases i with
  | reset => exact fun _ => acc_of_initial_sums rfl rfl
  | update offset length =>
    rw [completed]
    by_cases h : AbsorbsBytes offset length s
    · intro hfresh
      rw [updated_phase, if_pos h] at hfresh
      exact nomatch hfresh
    · rw [updated_of_not_absorbs h]
      exact hs
  | finalize => exact hs

end Sys2Proof.Machine
end

section
/-! PHASE and the sums along every command, the packed view ACC, and the invariant at hardware reset and along every
step. -/
namespace Sys2Proof.Machine

theorem acc_toNat (s : State) : s.acc.toNat = s.s2.toNat * 65536 + s.s1.toNat := by
  rw [State.acc, BitVec.toNat_append, ← Nat.shiftLeft_add_eq_or_of_lt s.s1.isLt, Nat.shiftLeft_eq]

theorem bufferWf_none : BufferWf none := fun _ h => nomatch h

/-- The invariant holds wherever the sums are the initial ones and nothing is bound, whatever PHASE is. -/
theorem inv_of_initial_sums {s : State} (h1 : s.s1 = 1) (h2 : s.s2 = 0) (hbuf : s.buf = none)
    (hinputs : ∀ e ∈ s.inputs, e.wf) : Inv s where
  reduced := reduced_of_initial_sums h1 h2
  fresh := fun _ => acc_of_initial_sums h1 h2
  unbound := hbuf
  buffers := ⟨hbuf ▸ bufferWf_none, hinputs⟩

/-- An accepted command keeps the invariant: it leaves the rest of the channel as it was and nothing bound. -/
theorem inv_completed_accept {s : State} {c : Presented} {rest : List HostEvent} (i : Instr) (hs : Inv s)
    (hrest : ∀ e ∈ rest, e.wf) : Inv (completed i (s.accept i c rest)) where
  reduced := completed_reduced i hs.reduced
  fresh := completed_freshIsInitial i hs.fresh
  unbound := completed_accept_buf i s c rest
  buffers := ⟨completed_accept_buf i s c rest ▸ bufferWf_none, by rw [completed_inputs]; exact hrest⟩

/-- Settles O41: PHASE of the state each command completes in. -/
theorem phaseFollowsCommands : Obligations.PhaseFollowsCommands := by
  intro i s hi
  refine ⟨completed i s, exec_of_supplied hi, ?_⟩
  cases i with
  | reset => rfl
  | update offset length =>
    obtain ⟨b, hb⟩ := Option.isSome_iff_exists.mp hi
    simp only [completed, updated_phase, AbsorbsBytes, State.bound_eq hb, hb]
  | finalize => rfl

/-- Settles O42: the state each command completes in is reduced, for UPDATE because the naive fold is. -/
theorem commandsKeepSumsReduced : Obligations.CommandsKeepSumsReduced :=
  fun i s hi hs => ⟨completed i s, exec_of_supplied hi, completed_reduced i hs⟩

/-- Settles O9. -/
theorem resetStateIsInitial : Obligations.ResetStateIsInitial :=
  ⟨rfl, rfl, rfl, rfl, rfl, rfl, rfl⟩

/-- Settles O13. -/
theorem accumulatorPacksSums : Obligations.AccumulatorPacksSums := acc_toNat

/-- Settles O45. -/
theorem invariantHoldsAtReset : Obligations.InvariantHoldsAtReset :=
  inv_of_initial_sums rfl rfl rfl fun _ h => nomatch h

/-- Settles O46, by the three things a step that goes on can have done. -/
theorem stepKeepsInvariant : Obligations.StepKeepsInvariant := by
  intro s t hs hstep
  obtain ⟨-, hwf⟩ := hs.buffers
  rcases step_cases hstep with ⟨-, rfl⟩ | ⟨cut, rest, hin, rfl⟩ | ⟨c, rest, i, hin, -, hexec⟩
  · exact hs
  · rw [hin] at hwf
    exact inv_of_initial_sums rfl rfl rfl (List.forall_mem_of_forall_mem_cons hwf)
  · rw [hin] at hwf
    rw [eq_completed_of_exec_eq_next hexec]
    exact inv_completed_accept i hs (List.forall_mem_of_forall_mem_cons hwf)

end Sys2Proof.Machine
end

section
/-! Noninterference (10_state.md rules R30, R33, R36): what a command answers depends on the sums, PHASE and its own buffer
alone, so two runs that share the block and the command channel go on sharing them. -/
namespace Sys2Proof.Machine

section
variable {s t : State} {i : Instr}

theorem bound_congr (hbuf : s.buf = t.buf) : s.bound = t.bound := by
  rw [State.bound, hbuf, State.bound]

theorem updateStatus_congr (hbuf : s.buf = t.buf) (offset length : Int) :
    updateStatus offset length s = updateStatus offset length t := by
  simp only [updateStatus, RangeInBound, bound_congr hbuf]

theorem absorbsBytes_congr (hbuf : s.buf = t.buf) (offset length : Int) :
    AbsorbsBytes offset length s ↔ AbsorbsBytes offset length t := by
  rw [AbsorbsBytes, bound_congr hbuf, AbsorbsBytes]

theorem updateW_congr (h1 : s.s1 = t.s1) (h2 : s.s2 = t.s2) (hbuf : s.buf = t.buf) (offset length : Int) :
    updateW s offset length = updateW t offset length := by
  rw [updateW, h1, h2, bound_congr hbuf, updateW]

theorem absorbed_sameBlock (h : SameBlock s t) (hbuf : s.buf = t.buf) (offset length : Int) :
    SameBlock (absorbed offset length s) (absorbed offset length t) := by
  obtain ⟨h1, h2, -, hin⟩ := h
  have hw := updateW_congr h1 h2 hbuf offset length
  exact ⟨by rw [absorbed_s1, hw, absorbed_s1], by rw [absorbed_s2, hw, absorbed_s2], rfl, hin⟩

theorem updated_sameBlock (h : SameBlock s t) (hbuf : s.buf = t.buf) (offset length : Int) :
    SameBlock (updated offset length s) (updated offset length t) := by
  by_cases ha : AbsorbsBytes offset length s
  · rw [updated_of_absorbs ha, updated_of_absorbs ((absorbsBytes_congr hbuf offset length).mp ha)]
    exact absorbed_sameBlock h hbuf offset length
  · rw [updated_of_not_absorbs ha, updated_of_not_absorbs (mt (absorbsBytes_congr hbuf offset length).mpr ha)]
    exact h

theorem completed_sameBlock (h : SameBlock s t) (hbuf : s.buf = t.buf) :
    SameBlock (completed i s) (completed i t) := by
  cases i with
  | reset =>
    obtain ⟨-, -, -, hin⟩ := h
    exact ⟨rfl, rfl, rfl, hin⟩
  | update offset length => exact updated_sameBlock h hbuf offset length
  | finalize => exact h

theorem responseOf_congr (h : SameBlock s t) (hbuf : s.buf = t.buf) : responseOf i s = responseOf i t := by
  obtain ⟨h1, h2, -, -⟩ := h
  cases i with
  | reset => rfl
  | update offset length => rw [responseOf, updateStatus_congr hbuf, responseOf]
  | finalize => rw [responseOf, finalizePayload, h1, h2, responseOf, finalizePayload]

/-- A command answers the same to two states that share the block and its buffer. -/
theorem exec_sameResult (h : SameBlock s t) (hbuf : s.buf = t.buf) : SameResult s t (exec i s) (exec i t) := by
  by_cases hi : Supplied i s.buf
  · rw [exec_of_supplied hi, exec_of_supplied (hbuf ▸ hi)]
    refine ⟨completed_sameBlock h hbuf, [responseOf i s], completed_responses i s, ?_⟩
    rw [completed_responses, responseOf_congr h hbuf]
  · rw [exec_of_not_supplied hi, exec_of_not_supplied (hbuf ▸ hi)]
    rfl

/-- Two states that go on to the same block without a response. -/
theorem sameResult_next_silent {s' t' : State} (h : SameBlock s' t') (hs : s'.responses = s.responses)
    (ht : t'.responses = t.responses) : SameResult s t (.next s') (.next t') :=
  ⟨h, [], by simp [hs], by simp [ht]⟩

/-- One step answers the same to two states that share the block: an UPDATE's buffer comes with the command. -/
theorem step_sameResult (h : SameBlock s t) : SameResult s t (step s) (step t) := by
  obtain ⟨h1, h2, hp, hin⟩ := h
  unfold step
  rw [← hin]
  split
  · exact sameResult_next_silent ⟨h1, h2, hp, hin⟩ rfl rfl
  · exact sameResult_next_silent ⟨rfl, rfl, rfl, rfl⟩ rfl rfl
  · split
    · exact exec_sameResult (s := s.accept _ _ _) (t := t.accept _ _ _) ⟨h1, h2, hp, rfl⟩ rfl
    · rfl

/-- Results that are the same for two later states are so for the earlier ones, which had the same responses since. -/
theorem SameResult.of_later {s' t' : State} {rs : List Response} {r q : Result}
    (hs : s'.responses = s.responses ++ rs) (ht : t'.responses = t.responses ++ rs) (h : SameResult s' t' r q) :
    SameResult s t r q := by
  match r, q, h with
  | .next _, .next _, ⟨hblock, new, hs', ht'⟩ =>
    exact ⟨hblock, rs ++ new, by rw [hs', hs, List.append_assoc], by rw [ht', ht, List.append_assoc]⟩
  | .fault _, .fault _, h => exact h
  | .refused _, .refused _, h => exact h

/-- Same results go on to same results when what follows answers the same to states that share the block. -/
theorem SameResult.andThen {r q : Result} {k : State → Result} (h : SameResult s t r q)
    (hk : ∀ s' t', SameBlock s' t' → SameResult s' t' (k s') (k t')) :
    SameResult s t (andThen r k) (andThen q k) := by
  match r, q, h with
  | .next s', .next t', ⟨hblock, _, hs, ht⟩ => exact (hk s' t' hblock).of_later hs ht
  | .fault _, .fault _, h => exact h
  | .refused _, .refused _, h => exact h

end

/-- Settles O47, by induction on the number of steps. -/
theorem hiddenStateNeverShows : Obligations.HiddenStateNeverShows := by
  intro n
  induction n with
  | zero => exact fun s t h => sameResult_next_silent h rfl rfl
  | succ n ih => exact fun s t h => (step_sameResult h).andThen ih

end Sys2Proof.Machine
end

section
/-! The buffer's life and use (20_memory.md rules R40, R48): what every command reads of its buffer, that a step leaves none
bound, and that the next state of an UPDATE holds nothing of the buffer but what the bytes of the range decide. -/
namespace Sys2Proof.Machine

section
variable {s t : State} {offset length : Int}

/-- The state before an UPDATE's response as one record (42_update.md rule R120). -/
theorem absorbed_eq (offset length : Int) (s : State) : absorbed offset length s =
    { s with
      s1 := lowHalf (updateW s offset length).1, s2 := lowHalf (updateW s offset length).2, phase := .accumulating
      w1 := (updateW s offset length).1, w2 := (updateW s offset length).2
      pos := unsignedOperand offset + BitVec.ofNat 32 length.toNat
      rem := unsignedOperand length - BitVec.ofNat 32 length.toNat
      reads := s.reads ++ List.range' (unsignedOperand offset).toNat length.toNat } := rfl

theorem absorbed_reads (h : AbsorbsBytes offset length s) :
    (absorbed offset length s).reads = s.reads ++ List.range' offset.toNat length.toNat := by
  obtain ⟨hoff, hpos, hlen⟩ := h
  have hoffset : (unsignedOperand offset).toNat = offset.toNat :=
    unsignedOperand_toNat hoff (by have := s.bound.len.isLt; omega)
  rw [absorbed_eq, hoffset]

/-- An UPDATE reads its range if that lies in the buffer, for LENGTH 0 an empty one, and nothing otherwise (20_memory.md
rule R48). -/
theorem updated_reads : (updated offset length s).reads =
    if RangeInBound offset length s then s.reads ++ List.range' offset.toNat length.toNat else s.reads := by
  by_cases ha : AbsorbsBytes offset length s
  · have hr : RangeInBound offset length s := by omega
    rw [updated_of_absorbs ha, State.endUpdate_reads, absorbed_reads ha, if_pos hr]
  · rw [updated_of_not_absorbs ha, State.endUpdate_reads]
    split
    next hr =>
      have hzero : length.toNat = 0 := by omega
      rw [hzero, List.range'_zero, List.append_nil]
    next => rfl

theorem updateStatus_congr_len (hlen : s.bound.len = t.bound.len) :
    updateStatus offset length s = updateStatus offset length t := by
  simp only [updateStatus, RangeInBound, hlen]

theorem absorbsBytes_congr_len (hlen : s.bound.len = t.bound.len) :
    AbsorbsBytes offset length s ↔ AbsorbsBytes offset length t := by
  simp only [AbsorbsBytes, hlen]

/-- The working sums come from the sub-sums and the bytes of the range alone (42_update.md rule R125). -/
theorem updateW_congr_range (ha : AbsorbsBytes offset length s) (h1 : s.s1 = t.s1) (h2 : s.s2 = t.s2)
    (hlen : s.bound.len = t.bound.len)
    (hread : ∀ a : Nat, offset ≤ a → (a : Int) < offset + length → s.bound.read a = t.bound.read a) :
    updateW s offset length = updateW t offset length := by
  obtain ⟨hoff, hpos, hend⟩ := ha
  have hend' : offset + length ≤ t.bound.len.toNat := hlen ▸ hend
  have hbytes : s.bound.bytes offset.toNat length.toNat = t.bound.bytes offset.toNat length.toNat :=
    Buffer.bytes_congr (by omega) (by omega) fun a hlo hhi => hread a (by omega) (by omega)
  rw [updateW, h1, h2, hbytes, updateW]

/-- Two buffers of one length that agree on its range leave an UPDATE the very same state: both are released, and no copy
of either is kept (20_memory.md rule R40). -/
theorem updated_bind_congr_range {b c : Buffer} (s : State) (hlen : b.len = c.len)
    (hread : ∀ a : Nat, offset ≤ a → (a : Int) < offset + length → b.read a = c.read a) :
    updated offset length (s.bind (some b)) = updated offset length (s.bind (some c)) := by
  have hiff : AbsorbsBytes offset length (s.bind (some b)) ↔ AbsorbsBytes offset length (s.bind (some c)) :=
    absorbsBytes_congr_len hlen
  by_cases ha : AbsorbsBytes offset length (s.bind (some b))
  · have hw : updateW (s.bind (some b)) offset length = updateW (s.bind (some c)) offset length :=
      updateW_congr_range ha rfl rfl hlen hread
    rw [updated_of_absorbs ha, updated_of_absorbs (hiff.mp ha), absorbed_eq, absorbed_eq, hw]
    rfl
  · have hstatus : updateStatus offset length (s.bind (some b)) = updateStatus offset length (s.bind (some c)) :=
      updateStatus_congr_len hlen
    rw [updated_of_not_absorbs ha, updated_of_not_absorbs (mt hiff.mpr ha), hstatus]
    rfl

/-- A step at a packet that decodes runs its command (30_encoding.md rule R60). -/
theorem step_command {c : Presented} {rest : List HostEvent} {i : Instr} (hin : s.inputs = .command c :: rest)
    (hdec : decode c.packet = .ok i) : step s = exec i (s.accept i c rest) := by
  simp only [step, hin, hdec]

/-- Whatever a step takes, it leaves no buffer bound (20_memory.md rule R40, 70_reset_and_hazards.md rule R174). -/
theorem step_buf (hin : s.inputs ≠ []) (h : step s = .next t) : t.buf = none := by
  rcases step_cases h with ⟨hidle, -⟩ | ⟨-, rest, -, rfl⟩ | ⟨c, rest, i, -, -, hexec⟩
  · exact absurd hidle hin
  · rfl
  · rw [eq_completed_of_exec_eq_next hexec]
    exact completed_accept_buf i s c rest

end

/-- Settles O30: the reads of the state each command completes in. -/
theorem onlyTheRangeIsRead : Obligations.OnlyTheRangeIsRead := by
  intro i s hi
  refine ⟨completed i s, exec_of_supplied hi, ?_⟩
  cases i with
  | reset => rfl
  | update offset length =>
    obtain ⟨b, hb⟩ := Option.isSome_iff_exists.mp hi
    simp only [completed, updated_reads, RangeInBound, State.bound_eq hb, hb]
  | finalize => rfl

/-- Settles O49: nothing stays bound, RESET and FINALIZE are accepted with nothing bound, and the state an UPDATE leaves
is decided by its range. -/
theorem noBufferOutlivesItsUpdate : Obligations.NoBufferOutlivesItsUpdate := by
  refine ⟨fun s t => step_buf, fun s c rest i hi hin hdec => ?_, fun s b c offset length hlen hread => ?_⟩
  · rw [step_command hin hdec, State.accept_eq]
    rcases hi with rfl | rfl
    · rw [bindingFor_reset]
    · rw [bindingFor_finalize]
  · have hexec : ∀ x : Buffer, exec (.update offset length) (s.bind (some x))
        = .next (updated offset length (s.bind (some x))) := fun _ => exec_of_supplied rfl
    exact ⟨_, hexec b, updated_bind_congr_range s hlen hread ▸ hexec c⟩

end Sys2Proof.Machine
end

section
/-! Proofs about packets (30_encoding.md rules R61 to R67): the decoder and the encoder are each other's inverse, what a
header alone says, and the two operand fields in plain arithmetic. -/
namespace Sys2Proof

@[simp] theorem wellFormed_update {offset length : Int} :
    (Instr.update offset length).wellFormed = true ↔ fitsField offset = true ∧ fitsField length = true :=
  Bool.and_eq_true_iff

/-- The packet of an UPDATE decodes to the integers its two fields denote, whether or not the operands fit (30_encoding.md
rules R63, R64). -/
theorem decode_encode_update (offset length : Int) : decode (encode (.update offset length))
    = .ok (.update (intOfField (fieldOfInt offset)) (intOfField (fieldOfInt length))) := by
  refine (decode_update _ _ _ _ _ _ _ _).trans ?_
  rw [fieldOfBytes_extract, fieldOfBytes_extract]

/-- Four bytes for each field, put in a packet again, are those bytes (30_encoding.md rules R63, R64). -/
theorem encode_update_fieldOfBytes (o0 o1 o2 o3 l0 l1 l2 l3 : Byte) :
    encode (.update (intOfField (fieldOfBytes o0 o1 o2 o3)) (intOfField (fieldOfBytes l0 l1 l2 l3)))
      = [0x01, o0, o1, o2, o3, l0, l1, l2, l3] := by
  rw [encode, fieldOfInt_intOfField, fieldOfInt_intOfField, bytesOfField_fieldOfBytes, bytesOfField_fieldOfBytes]
  rfl

/-- Settles O7: both fields of an UPDATE keep every integer that fits them. -/
theorem decodeEncodeRoundTrip : Obligations.DecodeEncodeRoundTrip := by
  intro i hi
  cases i with
  | reset => rfl
  | update offset length =>
    obtain ⟨hoffset, hlength⟩ := wellFormed_update.mp hi
    rw [decode_encode_update, intOfField_fieldOfInt hoffset, intOfField_fieldOfInt hlength]
  | finalize => rfl

/-- Settles O8, by the three forms of a packet that decodes. -/
theorem encodeDecodeRoundTrip : Obligations.EncodeDecodeRoundTrip := by
  intro p i h
  rcases decode_cases h with ⟨rfl, rfl⟩ | ⟨rfl, rfl⟩ | ⟨o0, o1, o2, o3, l0, l1, l2, l3, rfl, rfl⟩
  · exact ⟨rfl, rfl⟩
  · exact ⟨rfl, rfl⟩
  · exact ⟨wellFormed_update.mpr ⟨fitsField_intOfField _, fitsField_intOfField _⟩,
      encode_update_fieldOfBytes o0 o1 o2 o3 l0 l1 l2 l3⟩

/-- The packet length as arithmetic on the header: `rsv` is its quotient by 4 and `op` its remainder (30_encoding.md rules
R61, R67). -/
theorem packetLength_eq (h : Byte) : packetLength h =
    if h.toNat / 4 ≠ 0 ∨ h.toNat % 4 = 3 then none else if h.toNat % 4 = 1 then some 9 else some 1 := by
  revert h
  decide

/-- A packet that decodes is as long as its header says (30_encoding.md rule R67). -/
theorem packetLength_of_decode {p : List Byte} {i : Instr} (h : decode p = .ok i) :
    ∃ header rest, p = header :: rest ∧ packetLength header = some p.length := by
  rcases decode_cases h with ⟨rfl, -⟩ | ⟨rfl, -⟩ | ⟨o0, o1, o2, o3, l0, l1, l2, l3, rfl, -⟩
  · exact ⟨_, _, rfl, rfl⟩
  · exact ⟨_, _, rfl, rfl⟩
  · exact ⟨_, _, rfl, rfl⟩

/-- Settles O4. -/
theorem headerGivesPacketLength : Obligations.HeaderGivesPacketLength :=
  ⟨packetLength_eq, fun _ _ => packetLength_of_decode⟩

/-- A field made of four bytes is signed by its last one (30_encoding.md rule R64). -/
theorem intOfField_fieldOfBytes (b0 b1 b2 b3 : Byte) : intOfField (fieldOfBytes b0 b1 b2 b3)
    = (b0.toNat + 256 * b1.toNat + 65536 * b2.toNat + 16777216 * b3.toNat : Nat)
      - (if 128 ≤ b3.toNat then 4294967296 else 0) := by
  have hsign : 2147483648 ≤ (fieldOfBytes b0 b1 b2 b3).toNat ↔ 128 ≤ b3.toNat := by
    rw [fieldOfBytes_toNat]
    omega
  simp only [intOfField_eq, hsign]
  rw [fieldOfBytes_toNat]

/-- Settles O6. -/
theorem updateFieldsAreLittleEndianSigned : Obligations.UpdateFieldsAreLittleEndianSigned :=
  fun o0 o1 o2 o3 l0 l1 l2 l3 => ⟨_, _, decode_update o0 o1 o2 o3 l0 l1 l2 l3,
    intOfField_fieldOfBytes o0 o1 o2 o3, intOfField_fieldOfBytes l0 l1 l2 l3⟩

/-- A reserved header decodes to nothing, whatever follows it (30_encoding.md rule R66). -/
theorem decode_reservedHeader {header : Byte} (h : 3 ≤ header.toNat) (rest : List Byte) :
    decode (header :: rest) = .error (.reservedHeader header) := by
  simp only [decode, (packetLength_eq_none_iff header).mpr h]

/-- Every eight operand bytes are legal (30_encoding.md rule R66). -/
theorem decode_updateHeader {operands : List Byte} (h : operands.length = 8) :
    ∃ offset length, decode (0x01 :: operands) = .ok (.update offset length) := by
  match operands, h with
  | [o0, o1, o2, o3, l0, l1, l2, l3], _ => exact ⟨_, _, decode_update o0 o1 o2 o3 l0 l1 l2 l3⟩

/-- Settles O3: the UPDATE packets by the integers of their fields, the refused ones by their reserved headers. -/
theorem workedPacketsDecode : Obligations.WorkedPacketsDecode := by
  refine ⟨rfl, rfl, ?_, ?_, ?_, ?_, ?_, ?_, ?_, ?_, ?_, ?_, ?_⟩
  iterate 6 exact decode_update _ _ _ _ _ _ _ _
  iterate 5 exact decode_reservedHeader (by decide) []

end Sys2Proof
end

section
/-! Proofs about presented packets and their responses (30_encoding.md rules R60, R66, R68, R69): which step a packet has,
and the one response each command delivers. -/
namespace Sys2Proof.Machine

section
variable {s : State} {c : Presented} {rest : List HostEvent}

/-- The machine has no step for a byte string that does not decode (30_encoding.md rule R66). -/
theorem step_refused {e : DecodeError} (hin : s.inputs = .command c :: rest) (hdec : decode c.packet = .error e) :
    step s = .refused (refusalOf e) := by
  simp only [step, hin, hdec]

theorem updateStatus_eq_or (offset length : Int) (s : State) :
    updateStatus offset length s = statusOk ∨ updateStatus offset length s = statusOutOfRange :=
  ite_eq_or_eq _ _ _

/-- FINALIZE delivers the packed accumulator's bytes, least significant first (43_finalize.md rule R141). -/
theorem finalizePayload_eq (s : State) : finalizePayload s = bytesOfField s.acc := by
  have h1 := s.s1.isLt
  simp only [finalizePayload, bytesOfField, List.cons.injEq, and_true]
  refine ⟨?_, ?_, ?_, ?_⟩ <;> apply BitVec.eq_of_toNat_eq <;>
    simp only [BitVec.extractLsb'_toNat, Nat.shiftRight_eq_div_pow, acc_toNat] <;> omega

end

/-- Settles O5: the decoder refuses every reserved header by name, and so does the step. -/
theorem reservedHeaderHasNoStep : Obligations.ReservedHeaderHasNoStep :=
  ⟨fun _ rest h => ⟨decode_reservedHeader h rest, fun _ _ _ hin => step_refused hin (decode_reservedHeader h rest)⟩,
    fun _ => decode_updateHeader⟩

/-- Settles O39: the response of the state each command completes in. -/
theorem everyCommandRespondsOnce : Obligations.EveryCommandRespondsOnce := by
  intro i s hi
  refine ⟨completed i s, responseOf i s, exec_of_supplied hi, completed_responses i s, ?_⟩
  cases i with
  | reset => rfl
  | update offset length =>
    exact (updateStatus_eq_or offset length s).imp (congrArg (Response.mk · [])) (congrArg (Response.mk · []))
  | finalize => exact congrArg (Response.mk statusOk) (finalizePayload_eq s)

/-- Settles O43: an accepted command is bound a buffer only if it is an UPDATE. -/
theorem stepRunsDecodedCommand : Obligations.StepRunsDecodedCommand := by
  intro s c rest i hin hdec
  rw [step_command hin hdec, State.accept_eq]
  cases i with
  | reset => rfl
  | update offset length => rfl
  | finalize => rfl

/-- Settles O50: accepted without a buffer, an UPDATE finds none bound. -/
theorem updateWithoutBufferIsRefused : Obligations.UpdateWithoutBufferIsRefused := by
  refine ⟨fun s offset length => execUpdate_unbound offset length, fun s packet rest offset length hin hdec => ?_⟩
  have hunbound : (s.accept (.update offset length) ⟨packet, none⟩ rest).buf = none := rfl
  rw [step_command hin hdec]
  exact execUpdate_unbound offset length hunbound

end Sys2Proof.Machine
end

section
/-! Proofs about the datapath (40_datapath.md): the reduction unit's two modes, one STEP with its frame, and the working
sums of a run of STEPs, exact up to MAX_BLOCK bytes and wrapped once after one byte more. -/
namespace Sys2Proof.Machine

section
variable {s : State} {v : Word}

/-- At twice MODULUS and above, one subtraction leaves a value that is not reduced (40_datapath.md rule R84). -/
theorem modulus_le_csub (h : 131042 ≤ v.toNat) : 65521 ≤ (csub v).toNat := by
  rw [csub_toNat, if_pos (by omega)]
  omega

theorem csub_toNat_eq_mod_iff (v : Word) : (csub v).toNat = v.toNat % 65521 ↔ v.toNat < 131042 := by
  refine ⟨fun h => ?_, csub_toNat_eq_mod⟩
  by_contra hv
  have := modulus_le_csub (Nat.le_of_not_lt hv)
  omega

theorem modulo_le (v : Word) : (modulo v).toNat ≤ 65520 := by
  rw [modulo_toNat]
  omega

theorem modulo_of_le (h : v.toNat ≤ 65520) : modulo v = v := by
  apply BitVec.eq_of_toNat_eq
  rw [modulo_toNat, Nat.mod_eq_of_lt (by omega)]

/-- One STEP's working sums: W2 takes the W1 the byte has been added to (40_datapath.md rules R80, R81). -/
theorem stepped_one_work (s : State) :
    (stepped 1 s).w1.toNat = (s.w1.toNat + (Memory.read s.bound.cells s.pos.toNat).toNat) % 2 ^ 32 ∧
    (stepped 1 s).w2.toNat = (s.w2.toNat + (stepped 1 s).w1.toNat) % 2 ^ 32 :=
  ⟨pipe1_toNat _ _, pipe2_toNat _ _⟩

/-- The frame of one STEP (40_datapath.md rule R82). -/
theorem stepped_one_frame (s : State) : stepped 1 s =
    { s with
      w1 := (stepped 1 s).w1, w2 := (stepped 1 s).w2, pos := (stepped 1 s).pos, rem := (stepped 1 s).rem
      reads := s.reads ++ [s.pos.toNat] } := rfl

/-- W2 after a run of bytes is its closed form in 32-bit arithmetic, whether or not an addition wraps (40_datapath.md
rules R86, R88). -/
theorem pipes_snd (p : Word × Word) (bs : List Byte) :
    (pipes p bs).2 = p.2 + BitVec.ofNat 32 bs.length * p.1 + BitVec.ofNat 32 (weightedSum bs) := by
  induction bs generalizing p with
  | nil => simp [pipes, weightedSum]
  | cons b bs ih =>
    have hb : zextByte b = BitVec.ofNat 32 b.toNat := (BitVec.ofNat_toNat 32 b).symm
    have hone : BitVec.ofNat 32 1 = (1 : Word) := rfl
    simp only [pipes, ih, pipe2, pipe1, hb, weightedSum, List.length_cons, BitVec.ofNat_add, BitVec.ofNat_mul, hone]
    ring

theorem stepped_w2_toNat_mod (n : Nat) (s : State) : (stepped n s).w2.toNat
    = (s.w2.toNat + n * s.w1.toNat + weightedSum (s.bound.bytes s.pos.toNat n)) % 2 ^ 32 := by
  rw [stepped, consumed_w2, pipes_snd, Buffer.bytes_length]
  simp [BitVec.toNat_add, BitVec.toNat_mul]

theorem byteSum_replicate (n : Nat) (b : Byte) : byteSum (List.replicate n b) = b.toNat * n := by
  induction n with
  | zero => rfl
  | succ n ih => rw [List.replicate_succ, byteSum, ih, Nat.mul_succ, Nat.add_comm]

/-- Equal bytes are weighted by 1 to n (40_datapath.md rule R87). -/
theorem weightedSum_replicate (n : Nat) (b : Byte) :
    weightedSum (List.replicate n b) = b.toNat * (n * (n + 1) / 2) := by
  induction n with
  | zero => rfl
  | succ n ih =>
    have htri : (n + 1) * (n + 1 + 1) / 2 = n * (n + 1) / 2 + (n + 1) := by
      rw [Nat.mul_comm, Nat.mul_comm n]
      exact Nat.triangle_succ (n + 1)
    rw [List.replicate_succ, weightedSum, ih, List.length_replicate, htri]
    ring

/-- The bounds on a run of at most MAX_BLOCK STEPs: W2's with the exact division of rule R87, which `stepped_toNat` keeps
clear of, and both at MAX_BLOCK. -/
theorem stepped_le_of_le_maxBlock {n : Nat} (hn : n ≤ 5552) (h1 : s.w1.toNat ≤ 65520) (h2 : s.w2.toNat ≤ 65520) :
    (stepped n s).w2.toNat ≤ (n + 1) * 65520 + 255 * (n * (n + 1) / 2) ∧
    (stepped n s).w1.toNat ≤ 1481280 ∧ (stepped n s).w2.toNat ≤ 4294690200 := by
  obtain ⟨-, -, hle1, hle2⟩ := stepped_toNat hn h1 h2
  have htri : 2 * (n * (n + 1) / 2) = n * (n + 1) := Nat.two_mul_div_two_of_even (Nat.even_mul_succ_self n)
  have hmax : n * (n + 1) ≤ 5552 * 5553 := Nat.mul_le_mul hn (by omega)
  omega

end

/-- Settles O17. -/
theorem stepsHaveClosedForm : Obligations.StepsHaveClosedForm := by
  intro s b n hbuf hrem hlen hfit1 hfit2
  obtain rfl := State.bound_eq hbuf
  have hsums := pipes_toNat (s.w1, s.w2) (s.bound.bytes s.pos.toNat n) hfit1 (by rwa [Buffer.bytes_length])
  rw [Buffer.bytes_length] at hsums
  obtain ⟨hw1, hw2⟩ := hsums
  exact ⟨stepped n s, repeatOp_stepByte hlen, hw1, hw2, consumed_pos_toNat _ _ hlen, consumed_rem_toNat _ _ hrem⟩

/-- Settles O18: up to MAX_BLOCK bytes the sums are exact and bounded, bytes 0xFF attain the bounds, and one such byte more
takes W2 past 2^32. -/
theorem sumsStayBelowOverflowBound : Obligations.SumsStayBelowOverflowBound := by
  have hworst : 65520 + 5553 * 65520 + weightedSum (List.replicate 5553 0xFF) = 4296171735 := by
    rw [weightedSum_replicate]
    rfl
  refine ⟨fun s b n hbuf hn h1 h2 hlen => ?_, fun n => ?_, hworst, by decide, fun s b hbuf h1 h2 hlen hbytes => ?_⟩
  · obtain rfl := State.bound_eq hbuf
    obtain ⟨hw1, hw2, hle1, -⟩ := stepped_toNat hn h1 h2
    exact ⟨stepped n s, repeatOp_stepByte hlen, hw1, hw2, hle1, stepped_le_of_le_maxBlock hn h1 h2⟩
  · have hff : (0xFF : Byte).toNat = 255 := rfl
    rw [byteSum_replicate, weightedSum_replicate, hff]
    omega
  · obtain rfl := State.bound_eq hbuf
    refine ⟨stepped 5553 s, repeatOp_stepByte hlen, ?_⟩
    rw [stepped_w2_toNat_mod, h1, h2, hbytes, hworst]
    rfl

/-- Settles O14. -/
theorem csubSubtractsOnce : Obligations.CsubSubtractsOnce :=
  fun v => ⟨csub_toNat v, csub_toNat_eq_mod_iff v⟩

/-- Settles O15: idempotent, as a remainder is a reduced value. -/
theorem moduloIsRemainder : Obligations.ModuloIsRemainder :=
  fun v => ⟨modulo_toNat v, modulo_le v, modulo_of_le, modulo_of_le (modulo_le v)⟩

/-- Settles O16. -/
theorem stepFoldsOneByte : Obligations.StepFoldsOneByte := by
  intro s b x hbuf hread hrem
  obtain rfl := State.bound_eq hbuf
  obtain ⟨hlt, rfl⟩ := (Buffer.read_eq_some_iff s.bound s.pos.toNat x).mp hread
  obtain ⟨hw1, hw2⟩ := stepped_one_work s
  exact ⟨stepped 1 s, stepByte_eq hlt, hw1, hw2, consumed_pos_toNat _ _ hlt, consumed_rem_toNat _ _ hrem,
    stepped_one_frame s⟩

end Sys2Proof.Machine
end

section
/-! Proofs about RESET (41_reset.md) and the hardware-reset event (70_reset_and_hazards.md rule R170): the one record each
leaves, and the block state both share. -/
namespace Sys2Proof.Machine

section
variable {s : State}

/-- RESET as one record, its frame included (41_reset.md rule R100). -/
theorem completed_reset_eq (s : State) : completed .reset s =
    { s with s1 := 1, s2 := 0, phase := .fresh, responses := s.responses ++ [⟨0x00, []⟩] } := rfl

theorem exec_reset (s : State) : exec .reset s = .next (completed .reset s) := exec_of_supplied trivial

/-- Where the block already is as RESET leaves it, RESET only responds (41_reset.md rule R101). -/
theorem completed_reset_of_initial (h1 : s.s1 = 1) (h2 : s.s2 = 0) (hphase : s.phase = .fresh) :
    completed .reset s = { s with responses := s.responses ++ [⟨0x00, []⟩] } := by
  rw [completed_reset_eq, ← h1, ← h2, ← hphase]

theorem exec_reset_of_initial (h1 : s.s1 = 1) (h2 : s.s2 = 0) (hphase : s.phase = .fresh) :
    exec .reset s = .next { s with responses := s.responses ++ [⟨0x00, []⟩] } := by
  rw [exec_reset, completed_reset_of_initial h1 h2 hphase]

/-- A command the host presents in its own packet, without a buffer, is accepted and run. -/
theorem step_commandEvent {i : Instr} {rest : List HostEvent} (hwf : i.wellFormed = true)
    (hin : s.inputs = commandEvent i :: rest) : step s = exec i (s.accept i ⟨encode i, none⟩ rest) :=
  step_command hin (decodeEncodeRoundTrip i hwf)

/-- Hardware reset is taken whatever it cuts off (70_reset_and_hazards.md rule R170; log entry 10). -/
theorem step_hardwareReset {cut : Option Presented} {rest : List HostEvent}
    (hin : s.inputs = .hardwareReset cut :: rest) : step s = .next (hardwareReset (s.setInputs rest)) := by
  simp only [step, hin]

/-- RESET leaves the block of `State.reset`, with the channel as it was (41_reset.md rule R102). -/
theorem completed_reset_sameBlock (s : State) :
    SameBlock (completed .reset s) { State.reset with inputs := s.inputs } :=
  ⟨rfl, rfl, rfl, rfl⟩

/-- Hardware reset leaves the block of `State.reset`, with the channel as it was (70_reset_and_hazards.md rule R170). -/
theorem hardwareReset_sameBlock (s : State) : SameBlock (hardwareReset s) { State.reset with inputs := s.inputs } :=
  ⟨rfl, rfl, rfl, rfl⟩

end

/-- Settles O10. -/
theorem resetCommandResult : Obligations.ResetCommandResult :=
  ⟨rfl, fun s => ⟨completed .reset s, exec_reset s, acc_of_initial_sums rfl rfl, completed_reset_eq s⟩⟩

/-- Settles O11: RESET and both forms of hardware reset leave a block that RESET only responds from. -/
theorem resetCommandIsIdempotent : Obligations.ResetCommandIsIdempotent :=
  ⟨fun s => ⟨completed .reset s, _, exec_reset s, rfl, exec_reset_of_initial rfl rfl rfl, rfl⟩,
    fun _ => exec_reset_of_initial rfl rfl rfl,
    exec_reset_of_initial rfl rfl rfl⟩

/-- Settles O12: both leave the block of `State.reset`, and only RESET responds. -/
theorem resetAndHardwareResetAgree : Obligations.ResetAndHardwareResetAgree := by
  intro s evs cut
  exact ⟨_, _, (step_commandEvent rfl rfl).trans (exec_reset _), step_hardwareReset rfl,
    completed_reset_sameBlock _, hardwareReset_sameBlock _, completed_responses .reset _, rfl⟩

end Sys2Proof.Machine
end

section
/-! Proofs about the end of an UPDATE's path (42_update.md rules R111, R120, R121): from reduced sums every path leaves the
naive fold of its range, and the exit stores it. -/
namespace Sys2Proof.Machine

section
variable {s t : State} {offset length : Int}

/-- The state at the end of the path that an UPDATE takes (42_update.md rule R120). -/
def pathEnd (offset length : Int) (s : State) : State :=
  (loadw offset length s).consumed length.toNat (updateW s offset length).1 (updateW s offset length).2

theorem AbsorbsBytes.rangeInBound (h : AbsorbsBytes offset length s) : RangeInBound offset length s := by
  omega

theorem absorbsBytes_or_length_eq_zero (h : RangeInBound offset length s) :
    AbsorbsBytes offset length s ∨ length = 0 := by
  omega

theorem pathFor_loadw (h : AbsorbsBytes offset length s) :
    pathFor length (loadw offset length s) = .next (pathEnd offset length s) := by
  obtain ⟨hoff, hpos, hlen⟩ := h
  obtain ⟨epos, -, -, ebound, -⟩ := loadw_of_guard hoff (by omega) hlen
  obtain ⟨hpath, -⟩ := folds_pathFor hoff hpos hlen
  rw [hpath, epos, ebound]
  rfl

theorem exec_update_eq_updated {b : Buffer} (hbuf : s.buf = some b) (offset length : Int) :
    exec (.update offset length) s = .next (updated offset length s) :=
  execUpdate_eq_updated hbuf

/-- Wherever its path ends, UPDATE goes on with its exit (42_update.md rule R110). -/
theorem exec_update_of_pathFor {b : Buffer} (hbuf : s.buf = some b) (h : AbsorbsBytes offset length s)
    (ht : pathFor length (loadw offset length s) = .next t) :
    exec (.update offset length) s = .next (finishUpdate t) := by
  rw [pathFor_loadw h] at ht
  obtain rfl := Host.Outcome.next.inj ht
  rw [exec_update_eq_updated hbuf, updated_of_absorbs h]
  rfl

theorem loadw_w1_toNat_le (hs : Reduced s) : (loadw offset length s).w1.toNat ≤ 65520 := by
  rw [loadw_eq, zextSum_toNat]
  omega

theorem loadw_w2_toNat_le (hs : Reduced s) : (loadw offset length s).w2.toNat ≤ 65520 := by
  rw [loadw_eq, zextSum_toNat]
  omega

/-- What folds the range that LOADW has set up leaves, from reduced sums, their naive fold (40_datapath.md rule R89). -/
theorem Folds.exists_work_eq_nfold {f : Word × Word → List Byte → Word × Word} {o : Result}
    (hf : Folds (loadw offset length s) length.toNat f o) (h : RangeInBound offset length s) (hs : Reduced s) :
    ∃ t, o = .next t ∧ t.work = nfold s.sums (s.bound.bytes offset.toNat length.toNat) := by
  obtain ⟨hoff, hnonneg, hlen⟩ := h
  obtain ⟨epos, -, ework, ebound, -⟩ := loadw_of_guard hoff hnonneg hlen
  obtain ⟨ho, hwork⟩ := hf
  rw [← epos, ← ework, ← ebound]
  exact ⟨_, ho, hwork (loadw_w1_toNat_le hs) (loadw_w2_toNat_le hs)⟩

/-- STOREW loses nothing of working sums that are a naive fold of reduced ones (40_datapath.md rule R91). -/
theorem storew_sums_of_work_eq_nfold {bs : List Byte} (hs : Reduced s) (ht : t.work = nfold s.sums bs) :
    (storew t).sums = nfold s.sums bs := by
  have hred := nfold_reduced (p := s.sums) hs bs
  rw [← ht] at hred ⊢
  obtain ⟨h1, h2⟩ := hred
  exact Prod.ext (lowHalf_toNat (h1.trans (by decide))) (lowHalf_toNat (h2.trans (by decide)))

/-- UPDATE of a range in its buffer, an empty one included, leaves the naive fold of it (42_update.md rule R111). -/
theorem updated_sums (h : RangeInBound offset length s) (hs : Reduced s) :
    (updated offset length s).sums = nfold s.sums (s.bound.bytes offset.toNat length.toNat) := by
  rcases absorbsBytes_or_length_eq_zero h with ha | rfl
  · rw [updated_of_absorbs ha]
    exact absorbed_sums ha hs
  · rw [updated_of_not_absorbs (by omega)]
    rfl

/-- The naive fold from reduced sums in closed form (40_datapath.md rules R88, R89). -/
theorem nfold_sums (hs : Reduced s) (bs : List Byte) : nfold s.sums bs =
    ((s.s1.toNat + byteSum bs) % 65521, (s.s2.toNat + bs.length * s.s1.toNat + weightedSum bs) % 65521) := by
  obtain ⟨h1, h2⟩ := hs
  have hclosed := nfold_mod s.s1.toNat s.s2.toNat bs
  rwa [Nat.mod_eq_of_lt h1, Nat.mod_eq_of_lt h2] at hclosed

end

/-- Settles O27: each path folds its range, and what is folded from reduced sums is their naive fold. -/
theorem pathsEqualNaiveFold : Obligations.PathsEqualNaiveFold := by
  intro s b offset length hbuf hs hoff hpos hlen
  obtain rfl := State.bound_eq hbuf
  have hrange : RangeInBound offset length s := ⟨hoff, by omega, hlen⟩
  obtain ⟨-, hrem, -, -, hin⟩ := loadw_of_guard hoff (by omega) hlen
  refine ⟨?_, ?_, fun hshort => ?_⟩
  · obtain ⟨t, hpath, hwork⟩ := (folds_pathFor hoff hpos hlen).exists_work_eq_nfold hrange hs
    exact ⟨t, hpath, hwork, storew_sums_of_work_eq_nfold hs hwork⟩
  · have hbulk := folds_bulkPath hin
    rw [hrem] at hbulk
    exact hbulk.exists_work_eq_nfold hrange hs
  · have hfolds := folds_shortPath hin (by omega)
    rw [hrem] at hfolds
    exact hfolds.exists_work_eq_nfold hrange hs

/-- Settles O28: the stored sums are the naive fold, and that has a closed form. -/
theorem updateComputesNaiveFold : Obligations.UpdateComputesNaiveFold := by
  intro s b offset length hbuf hs hoff hnonneg hlen
  obtain rfl := State.bound_eq hbuf
  have hsums := updated_sums ⟨hoff, hnonneg, hlen⟩ hs
  have hclosed := hsums.trans (nfold_sums hs _)
  rw [Buffer.bytes_length] at hclosed
  obtain ⟨h1, h2⟩ := Prod.mk.inj hclosed
  exact ⟨_, exec_update_eq_updated hbuf offset length, hsums, h1, h2⟩

end Sys2Proof.Machine
end

section
/-! Runs of successive UPDATEs (42_update.md rule R122): a run over in-range parts absorbs the bytes they spell, whatever the
buffers, so how a byte sequence is cut into parts does not show. -/
namespace Sys2Proof.Machine

section
variable {s t u : State} {offset length : Int} {parts : List UpdateCall} {rest : List HostEvent}

/-- A range inside a buffer has a packet: no index reaches 2^31 (20_memory.md rule R40, 30_encoding.md rule R64). -/
theorem wellFormed_update_of_inRange {c : UpdateCall} (h : c.inRange) :
    (Instr.update c.offset c.length).wellFormed = true := by
  obtain ⟨hoff, hnonneg, hlen⟩ := (guardOk_iff _ _ _).mp h
  have hmax := c.buffer.len.isLt
  simp only [wellFormed_update, fitsField, Bool.and_eq_true, decide_eq_true_eq]
  omega

/-- PHASE after bytes `bs` have been summed: it moves with the first of them (10_state.md rule R24). -/
def phaseAfter (bs : List Byte) (p : Phase) : Phase := if bs = [] then p else .accumulating

theorem phaseAfter_append (bs cs : List Byte) (p : Phase) :
    phaseAfter (bs ++ cs) p = phaseAfter cs (phaseAfter bs p) := by
  cases cs with
  | nil => rw [List.append_nil, phaseAfter, phaseAfter, if_pos rfl]
  | cons c cs =>
    have hcons := List.cons_ne_nil c cs
    rw [phaseAfter, if_neg (List.append_ne_nil_of_right_ne_nil bs hcons), phaseAfter, if_neg hcons]

/-- From `s` to `t` the UPDATEs `parts` have run, each over a range in its buffer: the bytes they spell are summed, and
each has responded OK (42_update.md rules R111, R120, R124). -/
structure Absorbs (parts : List UpdateCall) (s t : State) : Prop where
  sums      : t.sums = nfold s.sums (parts.flatMap UpdateCall.bytes)
  phase     : t.phase = phaseAfter (parts.flatMap UpdateCall.bytes) s.phase
  responses : t.responses = s.responses ++ List.replicate parts.length ⟨statusOk, []⟩

theorem Absorbs.refl (s : State) : Absorbs [] s s := ⟨rfl, rfl, (List.append_nil _).symm⟩

theorem Absorbs.trans {others : List UpdateCall} (h : Absorbs parts s t) (h' : Absorbs others t u) :
    Absorbs (parts ++ others) s u where
  sums := by rw [h'.sums, h.sums, List.flatMap_append, nfold_append]
  phase := by rw [h'.phase, h.phase, List.flatMap_append, phaseAfter_append]
  responses := by rw [h'.responses, h.responses, List.length_append, List.replicate_add, List.append_assoc]

theorem Absorbs.reduced (h : Absorbs parts s t) (hs : Reduced s) : Reduced t := by
  have hred := nfold_reduced (p := s.sums) hs (parts.flatMap UpdateCall.bytes)
  rwa [← h.sums] at hred

/-- PHASE after an UPDATE of a range in its buffer, by the bytes of the range (42_update.md rules R114, R120). -/
theorem updated_phase_eq_phaseAfter (h : RangeInBound offset length s) : (updated offset length s).phase =
    phaseAfter (s.bound.bytes offset.toNat length.toNat) s.phase := by
  have hempty : s.bound.bytes offset.toNat length.toNat = [] ↔ ¬ AbsorbsBytes offset length s := by
    rw [← List.length_eq_zero_iff, Buffer.bytes_length]
    omega
  simp only [updated_phase, phaseAfter, hempty, ite_not]

theorem updateStatus_of_range (h : RangeInBound offset length s) : updateStatus offset length s = statusOk := if_pos h

/-- One presented UPDATE over a range in its buffer (30_encoding.md rule R60). -/
theorem step_update_event {c : UpdateCall} (hc : c.inRange) (hs : Reduced s) (hin : s.inputs = c.event :: rest) :
    ∃ t, step s = .next t ∧ Absorbs [c] s t ∧ t.inputs = rest := by
  have hrange : RangeInBound c.offset c.length ((s.setInputs rest).bind (some c.buffer)) := (guardOk_iff _ _ _).mp hc
  refine ⟨updated c.offset c.length ((s.setInputs rest).bind (some c.buffer)), ?_, ?_, updated_inputs⟩
  · rw [step_command hin (decodeEncodeRoundTrip _ (wellFormed_update_of_inRange hc))]
    exact exec_update_eq_updated rfl c.offset c.length
  · constructor
    case sums => rw [updated_sums hrange hs, List.flatMap_singleton]; rfl
    case phase => rw [updated_phase_eq_phaseAfter hrange, List.flatMap_singleton]; rfl
    case responses => rw [updated_responses, updateStatus_of_range hrange]; rfl

/-- Presented one after another, UPDATEs over ranges in their buffers all run (42_update.md rule R122). -/
theorem runSteps_update_events (hparts : ∀ c ∈ parts, c.inRange) (hs : Reduced s)
    (hin : s.inputs = parts.map UpdateCall.event ++ rest) :
    ∃ t, runSteps parts.length s = .next t ∧ Absorbs parts s t ∧ t.inputs = rest := by
  induction parts generalizing s with
  | nil => exact ⟨s, rfl, Absorbs.refl s, hin⟩
  | cons c parts ih =>
    obtain ⟨hc, hparts⟩ := List.forall_mem_cons.mp hparts
    obtain ⟨t, hstep, hfirst, hint⟩ := step_update_event hc hs hin
    obtain ⟨u, hrun, hothers, hinu⟩ := ih hparts (hfirst.reduced hs) hint
    refine ⟨u, ?_, hfirst.trans hothers, hinu⟩
    rw [runSteps, List.length_cons, repeatOp_succ, hstep]
    exact hrun

theorem sums_eq_iff : s.sums = t.sums ↔ s.s1 = t.s1 ∧ s.s2 = t.s2 := by
  simp only [State.sums, Prod.mk.injEq, BitVec.toNat_inj]

/-- FINALIZE returns the sums, and nothing else (43_finalize.md rule R144). -/
theorem finalizePayload_congr (h : s.sums = t.sums) : finalizePayload s = finalizePayload t := by
  obtain ⟨h1, h2⟩ := sums_eq_iff.mp h
  rw [finalizePayload, h1, h2, finalizePayload]

end

/-- Settles O33: the whole is a run of one part, and both runs sum the same bytes. -/
theorem chunkingInvariance : Obligations.ChunkingInvariance := by
  intro s parts whole rest hs hparts hwhole hbytes
  obtain ⟨t, hrunt, habst, hint⟩ := runSteps_update_events
    (s := { s with inputs := parts.map UpdateCall.event ++ rest }) hparts hs rfl
  obtain ⟨u, hrunu, habsu, hinu⟩ := runSteps_update_events
    (s := { s with inputs := whole.event :: rest }) (List.forall_mem_singleton.mpr hwhole) hs rfl
  have hspell : [whole].flatMap UpdateCall.bytes = parts.flatMap UpdateCall.bytes :=
    (List.flatMap_singleton _ _).trans hbytes
  have hsums : t.sums = u.sums := by rw [habst.sums, habsu.sums, hspell]; rfl
  have hphase : t.phase = u.phase := by rw [habst.phase, habsu.phase, hspell]
  have hpayload : finalizePayload u = finalizePayload t := finalizePayload_congr hsums.symm
  refine ⟨t, u, finalizePayload t, hrunt, hrunu, hsums, hphase, hint, hinu, rfl, ?_⟩
  rw [← hpayload]
  rfl

end Sys2Proof.Machine
end

section
/-! Proofs about UPDATE as one command (42_update.md): a failing guard and an empty range (rules R113, R114), the state its
path ends in, its exit and frame (rules R110, R120), and what its answer depends on (rule R125). -/
namespace Sys2Proof.Machine

section
variable {s t : State} {offset length : Int}

theorem updateStatus_of_not_range (h : ¬ RangeInBound offset length s) :
    updateStatus offset length s = statusOutOfRange := if_neg h

theorem updated_of_not_range (h : ¬ RangeInBound offset length s) :
    updated offset length s = raiseOutOfRange s := by
  rw [updated_of_not_absorbs (mt AbsorbsBytes.rangeInBound h), updateStatus_of_not_range h, raiseOutOfRange]

theorem updated_of_length_zero (h : RangeInBound offset 0 s) : updated offset 0 s = s.endUpdate statusOk := by
  rw [updated_of_not_absorbs (by omega), updateStatus_of_range h]

theorem pathEnd_work (offset length : Int) (s : State) :
    (pathEnd offset length s).work = ((updateW s offset length).1.toNat, (updateW s offset length).2.toNat) := rfl

theorem pathEnd_pos_toNat (h : AbsorbsBytes offset length s) :
    ((pathEnd offset length s).pos.toNat : Int) = offset + length := by
  obtain ⟨hoff, hpos, hlen⟩ := h
  obtain ⟨epos, -, -, ebound, -⟩ := loadw_of_guard hoff (by omega) hlen
  rw [pathEnd, consumed_pos_toNat _ _ (by rw [epos, ebound]; omega), epos]
  omega

theorem pathEnd_rem (h : AbsorbsBytes offset length s) : (pathEnd offset length s).rem = 0 := by
  obtain ⟨hoff, hpos, hlen⟩ := h
  obtain ⟨-, erem, -, -, -⟩ := loadw_of_guard hoff (by omega) hlen
  apply BitVec.eq_of_toNat_eq
  rw [pathEnd, consumed_rem_toNat _ _ erem.ge, erem, Nat.sub_self]
  rfl

/-- The path's working sums are reduced (42_update.md rule R120). -/
theorem pathEnd_reduced (h : AbsorbsBytes offset length s) (hs : Reduced s) :
    (pathEnd offset length s).w1.toNat ≤ 65520 ∧ (pathEnd offset length s).w2.toNat ≤ 65520 := by
  have hred := nfold_reduced (p := s.sums) hs (s.bound.bytes offset.toNat length.toNat)
  rw [← updateW_toNat h hs, ← pathEnd_work] at hred
  exact ⟨Nat.le_of_lt_succ hred.1, Nat.le_of_lt_succ hred.2⟩

/-- An UPDATE of one byte or more changes the sums, PHASE, the hidden registers, the reads and its binding, and responds
(42_update.md rule R110). -/
theorem updated_frame (h : AbsorbsBytes offset length s) : updated offset length s =
    { s with
      s1 := (updated offset length s).s1, s2 := (updated offset length s).s2, phase := .accumulating
      w1 := (updated offset length s).w1, w2 := (updated offset length s).w2
      pos := (updated offset length s).pos, rem := (updated offset length s).rem, buf := none
      responses := s.responses ++ [⟨0x00, []⟩]
      reads := s.reads ++ List.range' offset.toNat length.toNat } := by
  rw [updated_of_absorbs h, ← absorbed_reads h]
  rfl

/-- The stored sums depend on the old ones, BUFLEN and the bytes of the range alone (42_update.md rule R125). -/
theorem updated_sums_congr_range (h1 : s.s1 = t.s1) (h2 : s.s2 = t.s2) (hlen : s.bound.len = t.bound.len)
    (hread : ∀ a : Nat, offset ≤ a → (a : Int) < offset + length → s.bound.read a = t.bound.read a) :
    (updated offset length s).s1 = (updated offset length t).s1 ∧
    (updated offset length s).s2 = (updated offset length t).s2 := by
  by_cases ha : AbsorbsBytes offset length s
  · rw [updated_of_absorbs ha, updated_of_absorbs ((absorbsBytes_congr_len hlen).mp ha)]
    simp only [State.endUpdate_s1, State.endUpdate_s2, absorbed_s1, absorbed_s2,
      updateW_congr_range ha h1 h2 hlen hread, and_self]
  · rw [updated_of_not_absorbs ha, updated_of_not_absorbs (mt (absorbsBytes_congr_len hlen).mpr ha)]
    exact ⟨h1, h2⟩

end

/-- Settles O20: the two sides of the guard. -/
theorem failedGuardChangesNothing : Obligations.FailedGuardChangesNothing := by
  intro s b offset length hbuf
  obtain rfl := State.bound_eq hbuf
  rw [exec_update_eq_updated hbuf]
  refine ⟨fun hfail => ?_, fun hoff hnonneg hlen => ⟨_, rfl, ?_⟩⟩
  · have hout : ¬ RangeInBound offset length s := by omega
    rw [updated_of_not_range hout, raiseOutOfRange_eq]
  · rw [updated_responses, updateStatus_of_range ⟨hoff, hnonneg, hlen⟩]
    rfl

/-- Settles O21. -/
theorem zeroLengthUpdateIsNoOp : Obligations.ZeroLengthUpdateIsNoOp := by
  intro s b offset hbuf hoff hlen
  obtain rfl := State.bound_eq hbuf
  rw [exec_update_eq_updated hbuf, updated_of_length_zero (by omega)]
  rfl

/-- Settles O26: the end of the path, then what the exit stores of it. -/
theorem updateExitState : Obligations.UpdateExitState := by
  intro s b offset length hbuf hs hoff hpos hlen
  obtain rfl := State.bound_eq hbuf
  have ha : AbsorbsBytes offset length s := ⟨hoff, hpos, hlen⟩
  have hpath := pathFor_loadw ha
  obtain ⟨hw1, hw2⟩ := pathEnd_reduced ha hs
  have hs1 : (finishUpdate (pathEnd offset length s)).s1.toNat = (pathEnd offset length s).w1.toNat :=
    lowHalf_toNat (by omega)
  have hs2 : (finishUpdate (pathEnd offset length s)).s2.toNat = (pathEnd offset length s).w2.toNat :=
    lowHalf_toNat (by omega)
  exact ⟨_, _, hpath, pathEnd_rem ha, pathEnd_pos_toNat ha, hw1, hw2, exec_update_of_pathFor hbuf ha hpath, hs1, hs2,
    rfl, by omega⟩

/-- Settles O29: the path leaves the buffer bound, and the exit leaves the frame. -/
theorem updateFrameAndReads : Obligations.UpdateFrameAndReads := by
  intro s b offset length hbuf hoff hpos hlen
  obtain rfl := State.bound_eq hbuf
  have ha : AbsorbsBytes offset length s := ⟨hoff, hpos, hlen⟩
  exact ⟨_, _, pathFor_loadw ha, hbuf, fun _ => rfl, exec_update_eq_updated hbuf offset length, updated_frame ha⟩

/-- Settles O31: the sums by the bytes of the range, PHASE and the status by BUFLEN. -/
theorem updateDependsOnRangeOnly : Obligations.UpdateDependsOnRangeOnly := by
  intro s t b c offset length hbufs hbuft h1 h2 hphase hlen hread
  obtain rfl := State.bound_eq hbufs
  obtain rfl := State.bound_eq hbuft
  obtain ⟨hs1, hs2⟩ := updated_sums_congr_range h1 h2 hlen hread
  refine ⟨_, _, ⟨updateStatus offset length s, []⟩, exec_update_eq_updated hbufs offset length,
    exec_update_eq_updated hbuft offset length, hs1, hs2, ?_, updated_responses, ?_⟩
  · simp only [updated_phase, absorbsBytes_congr_len hlen, hphase]
  · rw [updated_responses, updateStatus_congr_len hlen]

end Sys2Proof.Machine
end

section
/-! Proofs about each path of UPDATE (42_update.md rules R116 to R119): the sums it holds on its way, its bounds, and how
often the loops of the bulk path run. -/
namespace Sys2Proof.Machine

section
variable {s : State} {v : Word} {offset length : Int}

theorem csub_le (h : v.toNat < 131042) : (csub v).toNat ≤ 65520 := by
  rw [csub_toNat_eq_mod h]
  omega

/-- Neither pipeline wraps on reduced sums (42_update.md rule R116). -/
theorem pipe1_zextSum_toNat {a : Half} (h : a.toNat < 65521) (x : Byte) :
    (pipe1 (zextSum a) x).toNat = a.toNat + x.toNat := by
  have := x.isLt
  rw [pipe1_toNat, zextSum_toNat]
  omega

theorem pipe2_zextSum_toNat {c : Half} (h : c.toNat < 65521) (hv : v.toNat ≤ 65520) :
    (pipe2 (zextSum c) v).toNat = c.toNat + v.toNat := by
  rw [pipe2_toNat, zextSum_toNat]
  omega

/-- Stored by STOREW, a sum below twice MODULUS has been subtracted from once (40_datapath.md rules R84, R91). -/
theorem lowHalf_csub_toNat (h : v.toNat < 131042) : (lowHalf (csub v)).toNat = (csub v).toNat := by
  have := csub_le h
  exact lowHalf_toNat (by omega)

/-- The single-byte path from the sub-sums and the byte at OFFSET (42_update.md rule R116). -/
theorem updateW_one (offset : Int) (s : State) : updateW s offset 1 =
    (csub (pipe1 (zextSum s.s1) (Memory.read s.bound.cells offset.toNat)),
      csub (pipe2 (zextSum s.s2) (csub (pipe1 (zextSum s.s1) (Memory.read s.bound.cells offset.toNat))))) := rfl

/-- For 2 to 15 bytes the path is STEPs, then CSUB on W1 and MOD on W2 (42_update.md rules R115, R117). -/
theorem pathFor_eq_shortPath (h2 : 2 ≤ length) (h15 : length ≤ 15) (s : State) : pathFor length s = shortPath s := by
  have hlim : (Config.shortLimit : Int) = 16 := rfl
  rw [pathFor, if_neg (by omega), if_pos (by omega)]

/-- A run of up to 15 STEPs from reduced sums (42_update.md rule R117). -/
theorem stepped_le_of_short {n : Nat} (hn : n ≤ 15) (h1 : s.w1.toNat ≤ 65520) (h2 : s.w2.toNat ≤ 65520) :
    (stepped n s).w1.toNat ≤ 69345 ∧ (stepped n s).w2.toNat ≤ 1078920 := by
  obtain ⟨-, -, hle1, hle2⟩ := stepped_toNat (n := n) (by omega) h1 h2
  have hmax : n * (n + 1) ≤ 15 * 16 := Nat.mul_le_mul hn (by omega)
  omega

theorem stepped_rem_eq_zero {n : Nat} (h : s.rem.toNat = n) : (stepped n s).rem = 0 := by
  apply BitVec.eq_of_toNat_eq
  rw [stepped, consumed_rem_toNat _ _ h.ge, h, Nat.sub_self]
  rfl

theorem reduceBoth_stepped_pos_toNat {n : Nat} (h : s.pos.toNat + n ≤ s.bound.len.toNat) :
    (reduceBoth (stepped n s)).pos.toNat = s.pos.toNat + n :=
  consumed_pos_toNat _ _ h

theorem reduceBoth_stepped_rem_toNat {n : Nat} (h : n ≤ s.rem.toNat) :
    (reduceBoth (stepped n s)).rem.toNat = s.rem.toNat - n :=
  consumed_rem_toNat _ _ h

/-- Two continuations may be exchanged after what reaches a state on which they agree. -/
theorem andThen_congr_of_next {o : Result} {k k' : State → Result} {t : State} (ho : o = .next t) (hk : k t = k' t) :
    andThen o k = andThen o k' := by
  rw [ho, andThen_next, andThen_next, hk]

/-- The leftover STEPs and the last reduction (42_update.md rule R119). -/
theorem leftover_eq (h : InRange s) :
    (andThen (whileRem 1 stepByte s.rem.toNat s) fun v => .next (reduceBoth v))
      = andThen (repeatOp s.rem.toNat stepByte s) fun v => .next { v with w1 := modulo v.w1, w2 := modulo v.w2 } := by
  rw [whileRem_stepByte h, repeatOp_stepByte h]
  rfl

/-- Whole groups over bytes that exist (40_datapath.md rule R83). -/
theorem repeatOp_group16 {m : Nat} (h : s.pos.toNat + m * 16 ≤ s.bound.len.toNat) :
    repeatOp m group16 s = .next (stepped (m * 16) s) := by
  have hgroup : group16 = repeatOp 16 stepByte := rfl
  rw [hgroup, repeatOp_mul, repeatOp_stepByte h]

/-- The tail of the bulk path by its loops (42_update.md rule R119). -/
theorem bulkTail_loops (h : InRange s) :
    (andThen (whileRem Config.group group16 s.rem.toNat s) fun u =>
      andThen (whileRem 1 stepByte u.rem.toNat u) fun v => .next (reduceBoth v))
      = andThen (repeatOp (s.rem.toNat / 16) group16 s) fun u =>
          andThen (repeatOp (s.rem.toNat % 16) stepByte u) fun v =>
            .next { v with w1 := modulo v.w1, w2 := modulo v.w2 } := by
  have hle : s.rem.toNat / 16 * 16 ≤ s.rem.toNat := Nat.div_mul_le_self _ _
  have hgroups := repeatOp_group16 (s := s) (m := s.rem.toNat / 16) (by unfold InRange at h; omega)
  have hleft : (stepped (s.rem.toNat / 16 * 16) s).rem.toNat = s.rem.toNat % 16 :=
    (consumed_rem_toNat _ _ hle).trans (by omega)
  have hloop : whileRem Config.group group16 s.rem.toNat s = repeatOp (s.rem.toNat / 16) group16 s := whileRem_group16 h
  rw [hloop]
  exact andThen_congr_of_next hgroups (hleft ▸ leftover_eq (consumed_inRange _ _ h hle))

end

/-- Settles O22: neither sum wraps, and STOREW keeps both. -/
theorem singleByteUpdateSubtractsOnce : Obligations.SingleByteUpdateSubtractsOnce := by
  intro s b offset x hbuf hs hoff hread
  obtain rfl := State.bound_eq hbuf
  obtain ⟨hlt, rfl⟩ := (Buffer.read_eq_some_iff s.bound offset.toNat x).mp hread
  have ha : AbsorbsBytes offset 1 s := by omega
  obtain ⟨h1, h2⟩ := hs
  refine ⟨_, exec_update_eq_updated hbuf offset 1, ?_⟩
  simp only [updated_of_absorbs ha, State.endUpdate_s1, State.endUpdate_s2, absorbed_s1, absorbed_s2, updateW_one]
  generalize Memory.read s.bound.cells offset.toNat = x
  have hx := x.isLt
  have hsum1 := pipe1_zextSum_toNat h1 x
  generalize pipe1 (zextSum s.s1) x = v1 at hsum1 ⊢
  have hlt1 : v1.toNat < 131042 := by omega
  have hle1 := csub_le hlt1
  have hsum2 := pipe2_zextSum_toNat h2 hle1
  generalize pipe2 (zextSum s.s2) (csub v1) = v2 at hsum2 ⊢
  have hlt2 : v2.toNat < 131042 := by omega
  rw [lowHalf_csub_toNat hlt1, lowHalf_csub_toNat hlt2, ← hsum1, ← hsum2]
  exact ⟨hlt1, hlt2, csub_toNat v1, csub_toNat v2⟩

/-- Settles O23: the loop is LENGTH STEPs, and the path ends in the two reductions. -/
theorem shortUpdateReducesOnce : Obligations.ShortUpdateReducesOnce := by
  intro s b offset length hbuf hs hoff h2 h15 hlen
  obtain rfl := State.bound_eq hbuf
  obtain ⟨-, hrem, -, -, hin⟩ := loadw_of_guard hoff (by omega) hlen
  have hsteps := whileRem_stepByte hin
  have hpath : pathFor length (loadw offset length s) = .next ((stepped length.toNat (loadw offset length s)).setWork
      (csub (stepped length.toNat (loadw offset length s)).w1)
      (modulo (stepped length.toNat (loadw offset length s)).w2)) := by
    rw [pathFor_eq_shortPath h2 h15, shortPath, hsteps, hrem, andThen_next]
  obtain ⟨hw1, hw2⟩ := stepped_le_of_short (n := length.toNat) (by omega)
    (loadw_w1_toNat_le (offset := offset) (length := length) hs) (loadw_w2_toNat_le hs)
  exact ⟨_, repeatOp_stepByte (hrem ▸ hin), stepped_rem_eq_zero hrem, hw1, hw2,
    exec_update_of_pathFor hbuf ⟨hoff, by omega, hlen⟩ hpath⟩

/-- Settles O24: a chunk is MAX_BLOCK STEPs and a reduction of both sums. -/
theorem chunkStaysBelowOverflowAndReduces : Obligations.ChunkStaysBelowOverflowAndReduces := by
  intro s b hbuf h1 h2 hrem hlen
  obtain rfl := State.bound_eq hbuf
  obtain ⟨hw1, hw2, -, -⟩ := stepped_toNat (Nat.le_refl 5552) h1 h2
  obtain ⟨-, hle1, hle2⟩ := stepped_le_of_le_maxBlock (Nat.le_refl 5552) h1 h2
  exact ⟨stepped 5552 s, reduceBoth (stepped 5552 s), repeatOp_stepByte hlen, hle1, hle2, hw1, hw2, chunk_eq hlen,
    modulo_toNat _, modulo_toNat _, reduceBoth_stepped_pos_toNat hlen, reduceBoth_stepped_rem_toNat hrem⟩

/-- Settles O25: each loop leaves the remainder of its division to the next. -/
theorem bulkPathLoopCounts : Obligations.BulkPathLoopCounts := by
  intro s b hbuf hlen
  obtain rfl := State.bound_eq hbuf
  have hle : s.rem.toNat / 5552 * 5552 ≤ s.rem.toNat := Nat.div_mul_le_self _ _
  obtain ⟨hchunks, -⟩ := folds_chunks (s := s) (m := s.rem.toNat / 5552) (by omega)
  have hloop : whileRem Config.maxBlock chunk s.rem.toNat s = repeatOp (s.rem.toNat / 5552) chunk s :=
    whileRem_chunk hlen
  have hsplit : s.rem.toNat - s.rem.toNat / 5552 * 5552 = s.rem.toNat % 5552 := by omega
  have hsixteen : s.rem.toNat % 16 = s.rem.toNat % 5552 % 16 := by omega
  rw [bulkPath, hloop]
  refine andThen_congr_of_next hchunks ?_
  rw [bulkTail_loops (consumed_inRange _ _ hlen hle), consumed_rem_toNat _ _ hle, hsplit, hsixteen]

end Sys2Proof.Machine
end

section
/-! The buffer is read only (20_memory.md rule R43, 42_update.md rule R123): nothing on a path of UPDATE writes the binding or
the command channel. -/
namespace Sys2Proof.Machine

/-- Where it goes on, `body` leaves the bound buffer and what is still presented as they were. -/
def KeepsEnvironment (body : State → Result) : Prop :=
  ∀ s t, body s = .next t → t.buf = s.buf ∧ t.inputs = s.inputs

section
variable {body rest : State → Result}

theorem KeepsEnvironment.andThen (hbody : KeepsEnvironment body) (hrest : KeepsEnvironment rest) :
    KeepsEnvironment fun s => andThen (body s) rest := by
  intro s u h
  obtain ⟨t, hfirst, hthen⟩ := andThen_eq_next h
  obtain ⟨hbuf, hin⟩ := hbody s t hfirst
  obtain ⟨hbuf', hin'⟩ := hrest t u hthen
  exact ⟨hbuf'.trans hbuf, hin'.trans hin⟩

/-- An update of the block's own registers. -/
theorem KeepsEnvironment.of_update {f : State → State} (hbuf : ∀ s, (f s).buf = s.buf)
    (hin : ∀ s, (f s).inputs = s.inputs) : KeepsEnvironment fun s => .next (f s) := by
  intro s t h
  obtain rfl := Host.Outcome.next.inj h
  exact ⟨hbuf s, hin s⟩

theorem KeepsEnvironment.repeatOp (hbody : KeepsEnvironment body) (n : Nat) :
    KeepsEnvironment (repeatOp n body) := by
  induction n with
  | zero => exact .of_update (fun _ => rfl) fun _ => rfl
  | succ n ih => exact hbody.andThen ih

theorem KeepsEnvironment.whileRem (hbody : KeepsEnvironment body) (limit fuel : Nat) :
    KeepsEnvironment (whileRem limit body fuel) := by
  induction fuel with
  | zero => exact .of_update (fun _ => rfl) fun _ => rfl
  | succ fuel ih =>
    intro s t h
    unfold Machine.whileRem at h
    split at h
    · exact hbody.andThen ih s t h
    · obtain rfl := Host.Outcome.next.inj h
      exact ⟨rfl, rfl⟩

/-- The loops of a path take their fuel from REM where they start. -/
theorem KeepsEnvironment.whileRem_rem (hbody : KeepsEnvironment body) (limit : Nat) :
    KeepsEnvironment fun s => Machine.whileRem limit body s.rem.toNat s :=
  fun s => hbody.whileRem limit s.rem.toNat s

/-- A read hands its byte on, whichever it is, or stops (20_memory.md rule R49). -/
theorem KeepsEnvironment.withByte {k : State → Byte → Result} (hk : ∀ x, KeepsEnvironment fun s => k s x) :
    KeepsEnvironment fun s => withByte s (k s) := by
  intro s t h
  simp only [Machine.withByte] at h
  split at h
  next x _ => exact hk x s t h
  next => exact nomatch h

end

theorem keepsEnvironment_stepByte : KeepsEnvironment stepByte :=
  .withByte fun _ => .of_update (fun _ => rfl) fun _ => rfl

theorem keepsEnvironment_group16 : KeepsEnvironment group16 := keepsEnvironment_stepByte.repeatOp Config.group

theorem keepsEnvironment_reduceBoth : KeepsEnvironment fun s => .next (reduceBoth s) :=
  .of_update (fun _ => rfl) fun _ => rfl

theorem keepsEnvironment_chunk : KeepsEnvironment chunk :=
  (keepsEnvironment_group16.repeatOp Config.groupsPerBlock).andThen keepsEnvironment_reduceBoth

theorem keepsEnvironment_singlePath : KeepsEnvironment singlePath :=
  .withByte fun _ => .of_update (fun _ => rfl) fun _ => rfl

theorem keepsEnvironment_shortPath : KeepsEnvironment shortPath :=
  (keepsEnvironment_stepByte.whileRem_rem 1).andThen (.of_update (fun _ => rfl) fun _ => rfl)

theorem keepsEnvironment_bulkPath : KeepsEnvironment bulkPath :=
  (keepsEnvironment_chunk.whileRem_rem Config.maxBlock).andThen
    ((keepsEnvironment_group16.whileRem_rem Config.group).andThen
      ((keepsEnvironment_stepByte.whileRem_rem 1).andThen keepsEnvironment_reduceBoth))

/-- Settles O32: each micro-operation and path keeps the environment's side, and so does each command but for an UPDATE's
release of its buffer. -/
theorem bufferIsNeverWritten : Obligations.BufferIsNeverWritten := by
  refine ⟨fun s t h => ?_, fun i s hi => ⟨completed i s, exec_of_supplied hi, completed_inputs i s, ?_⟩⟩
  · rcases h with h | h | h | h | h | h
    · exact keepsEnvironment_stepByte s t h
    · exact keepsEnvironment_group16 s t h
    · exact keepsEnvironment_chunk s t h
    · exact keepsEnvironment_singlePath s t h
    · exact keepsEnvironment_shortPath s t h
    · exact keepsEnvironment_bulkPath s t h
  · cases i with
    | reset => rfl
    | update offset length => rfl
    | finalize => rfl

end Sys2Proof.Machine
end

section
/-! Proofs about FINALIZE (43_finalize.md): its response byte by byte (rules R140, R141, R143, R144), and that no later
command sees that it ran (rule R142). -/
namespace Sys2Proof.Machine

/-- FINALIZE completes from every state, and only responds (43_finalize.md rules R140, R142). -/
theorem exec_finalize (s : State) : exec .finalize s = .next (s.respond statusOk (finalizePayload s)) := rfl

/-- The two bytes of a sub-sum, put together, are the sub-sum (43_finalize.md rule R141). -/
theorem half_bytes_toNat (x : Half) : (x.extractLsb' 0 8).toNat + 256 * (x.extractLsb' 8 8).toNat = x.toNat := by
  have := x.isLt
  simp only [BitVec.extractLsb'_toNat, Nat.shiftRight_eq_div_pow]
  omega

/-- The four bytes of ACC, least significant first, are the packed sums as a number (43_finalize.md rule R141). -/
theorem acc_bytes_toNat (s : State) :
    (s.acc.extractLsb' 0 8).toNat + 256 * (s.acc.extractLsb' 8 8).toNat + 65536 * (s.acc.extractLsb' 16 8).toNat
      + 16777216 * (s.acc.extractLsb' 24 8).toNat = s.s2.toNat * 65536 + s.s1.toNat := by
  rw [← fieldOfBytes_toNat, fieldOfBytes_extract, acc_toNat]

/-- The responses delivered before a command decide nothing of what it does: it adds its own to whichever they are. -/
theorem completed_setResponses (i : Instr) (s : State) (rs : List Response) :
    completed i { s with responses := rs } = { completed i s with responses := rs ++ [responseOf i s] } := by
  cases i with
  | reset => rfl
  | update offset length =>
    have hiff : AbsorbsBytes offset length { s with responses := rs } ↔ AbsorbsBytes offset length s :=
      absorbsBytes_congr rfl offset length
    rw [completed, completed]
    by_cases ha : AbsorbsBytes offset length s
    · have hstatus : updateStatus offset length s = statusOk := updateStatus_of_range ha.rangeInBound
      rw [updated_of_absorbs ha, updated_of_absorbs (hiff.mpr ha), responseOf, hstatus]
      rfl
    · rw [updated_of_not_absorbs ha, updated_of_not_absorbs (mt hiff.mp ha)]
      rfl
  | finalize => rfl

/-- Settles O34. -/
theorem finalizeResult : Obligations.FinalizeResult := ⟨rfl, exec_finalize⟩

/-- Settles O35: the payload is the bytes of ACC, and they are its number. -/
theorem finalizeIsLittleEndian : Obligations.FinalizeIsLittleEndian := by
  intro s
  refine ⟨_, _, _, _, _, exec_finalize s, ?_, rfl, rfl, rfl, rfl, acc_bytes_toNat s⟩
  rw [State.respond_responses, finalizePayload_eq]
  rfl

/-- Settles O36: the state FINALIZE leaves differs in its responses alone, which no command reads. -/
theorem finalizeIsNonDestructive : Obligations.FinalizeIsNonDestructive := by
  intro s j supplied hj
  refine ⟨_, finalizePayload s, _, _, _, exec_finalize s, rfl, exec_of_supplied hj, exec_of_supplied hj,
    completed_responses j _, ?_⟩
  exact completed_setResponses j { s with buf := supplied } _

/-- Settles O37: the halves of the payload are the sub-sums. -/
theorem finalizeShowsReducedSums : Obligations.FinalizeShowsReducedSums := by
  refine ⟨fun s ⟨h1, h2⟩ => ?_, _, exec_finalize State.reset, rfl⟩
  exact ⟨_, _, _, _, _, exec_finalize s, rfl, (half_bytes_toNat s.s1).trans_lt h1,
    (half_bytes_toNat s.s2).trans_lt h2⟩

/-- Settles O38: the payload is a function of the sums, which the first FINALIZE leaves as they were. -/
theorem finalizeIsDeterministic : Obligations.FinalizeIsDeterministic := by
  intro s t h1 h2
  have hagain : finalizePayload (s.respond statusOk (finalizePayload s)) = finalizePayload s :=
    finalizePayload_congr rfl
  have hother : finalizePayload t = finalizePayload s := finalizePayload_congr (sums_eq_iff.mpr ⟨h1, h2⟩).symm
  refine ⟨_, _, _, finalizePayload s, exec_finalize s, rfl, exec_finalize _, ?_, exec_finalize t, ?_⟩
  · rw [State.respond_responses, hagain]
    rfl
  · rw [State.respond_responses, hother]
    rfl

end Sys2Proof.Machine
end

section
/-! Proofs about OutOfRange (60_exceptions.md): when UPDATE raises it (rule R151), and that no later command sees that it
was raised (rules R153, R157). -/
namespace Sys2Proof.Machine

section
variable {s : State} {b : Buffer} {offset length : Int}

/-- The guard's failure as its three disjuncts (60_exceptions.md rule R151). -/
theorem not_rangeInBound_iff (hbuf : s.buf = some b) : ¬ RangeInBound offset length s ↔
    offset < 0 ∨ length < 0 ∨ offset + length > b.len.toNat := by
  obtain rfl := State.bound_eq hbuf
  omega

theorem updateStatus_eq_outOfRange_iff :
    updateStatus offset length s = statusOutOfRange ↔ ¬ RangeInBound offset length s := by
  refine ⟨fun hstatus hr => ?_, updateStatus_of_not_range⟩
  rw [updateStatus_of_range hr] at hstatus
  exact absurd hstatus (by decide)

/-- The one response with which UPDATE can answer (30_encoding.md rule R68). -/
theorem exec_update_answers_iff (hbuf : s.buf = some b) (r : Response) :
    (∃ t, exec (.update offset length) s = .next t ∧ t.responses = s.responses ++ [r]) ↔
      r = ⟨updateStatus offset length s, []⟩ := by
  rw [exec_update_eq_updated hbuf]
  constructor
  · rintro ⟨t, ht, hresp⟩
    cases ht
    rw [updated_responses] at hresp
    exact (List.singleton_inj.mp (List.append_cancel_left hresp)).symm
  · rintro rfl
    exact ⟨_, rfl, updated_responses⟩

theorem exec_update_of_not_range (hbuf : s.buf = some b) (h : ¬ RangeInBound offset length s) :
    exec (.update offset length) s = .next (raiseOutOfRange s) := by
  rw [exec_update_eq_updated hbuf, updated_of_not_range h]

/-- With a buffer bound anew, the state in which OutOfRange was taken differs in its responses alone (60_exceptions.md
rule R156). -/
theorem raiseOutOfRange_rebound_eq (s : State) (supplied : Option Buffer) :
    { raiseOutOfRange s with buf := supplied } =
      { { s with buf := supplied } with responses := s.responses ++ [⟨0x01, []⟩] } := rfl

end

/-- Settles O19: the status is that of the guard. -/
theorem outOfRangeExactlyWhenGuardFails : Obligations.OutOfRangeExactlyWhenGuardFails := by
  intro s b offset length hbuf
  rw [exec_update_answers_iff hbuf, Response.mk.injEq, and_iff_left rfl, eq_comm, ← not_rangeInBound_iff hbuf]
  exact updateStatus_eq_outOfRange_iff

/-- Settles O40: what a failing UPDATE leaves differs in its responses and its binding, which is supplied anew, and no
command reads the responses. -/
theorem errorIsNotSticky : Obligations.ErrorIsNotSticky := by
  intro s b offset length j supplied hbuf hfail hj
  have hraise := exec_update_of_not_range hbuf ((not_rangeInBound_iff hbuf).mpr hfail)
  refine ⟨_, _, _, _, hraise, rfl, exec_of_supplied hj, exec_of_supplied hj, completed_responses j _, ?_⟩
  rw [raiseOutOfRange_rebound_eq]
  exact completed_setResponses j { s with buf := supplied } _

end Sys2Proof.Machine
end

section
/-! Proofs about whole sessions (70_reset_and_hazards.md rules R172, R180): RESET, UPDATEs and FINALIZE presented in a row
return the checksum of the bytes the UPDATEs spell, from every state; with nothing presented the block stays idle. -/
namespace Sys2Proof.Machine

section
variable {s t u : State} {rest : List HostEvent}

theorem runSteps_succ_of_step {n : Nat} (hstep : step s = .next t) (hrun : runSteps n t = .next u) :
    runSteps (n + 1) s = .next u := by
  rw [runSteps, repeatOp_succ, hstep]
  exact hrun

theorem runSteps_succ_of_last {n : Nat} (hrun : runSteps n s = .next t) (hstep : step t = .next u) :
    runSteps (n + 1) s = .next u := by
  rw [runSteps_add, hrun, andThen_next, runSteps_one, hstep]

theorem half_low_byte_eq (x : Half) : x.extractLsb' 0 8 = BitVec.ofNat 8 x.toNat := rfl

theorem half_high_byte_eq (x : Half) : x.extractLsb' 8 8 = BitVec.ofNat 8 (x.toNat / 256) := by
  rw [BitVec.extractLsb', Nat.shiftRight_eq_div_pow]

/-- The payload from the sums as numbers, each in little-endian order (43_finalize.md rule R141). -/
theorem finalizePayload_eq_sums (s : State) : finalizePayload s =
    [BitVec.ofNat 8 s.sums.1, BitVec.ofNat 8 (s.sums.1 / 256),
      BitVec.ofNat 8 s.sums.2, BitVec.ofNat 8 (s.sums.2 / 256)] := by
  rw [finalizePayload, half_low_byte_eq, half_high_byte_eq, half_low_byte_eq, half_high_byte_eq]
  rfl

/-- A presented RESET leaves the initial sums and one response OK (41_reset.md rule R100). -/
theorem step_reset_event (hin : s.inputs = commandEvent .reset :: rest) :
    ∃ t, step s = .next t ∧ t.sums = (1, 0) ∧ t.inputs = rest ∧ t.responses = s.responses ++ [⟨statusOk, []⟩] :=
  ⟨_, (step_commandEvent rfl hin).trans (exec_reset _), rfl, rfl, rfl⟩

/-- A presented FINALIZE responds with the sums it finds (43_finalize.md rule R140). -/
theorem step_finalize_event (hin : s.inputs = commandEvent .finalize :: rest) :
    ∃ t, step s = .next t ∧ t.inputs = rest ∧ t.responses = s.responses ++ [⟨statusOk, finalizePayload s⟩] :=
  ⟨_, (step_commandEvent rfl hin).trans (exec_finalize _), rfl, rfl⟩

theorem step_idle (hin : s.inputs = []) : step s = .next s := by
  simp only [step, hin]

end

/-- Settles O48: RESET leaves the sums (1, 0), the UPDATEs fold their bytes into them, FINALIZE returns what they left. -/
theorem sessionReturnsChecksum : Obligations.SessionReturnsChecksum := by
  intro s parts rest hparts
  obtain ⟨t, hreset, hsums, hint, hrespt⟩ := step_reset_event
    (s := { s with inputs := commandEvent .reset ::
      (parts.map UpdateCall.event ++ commandEvent .finalize :: rest) }) rfl
  obtain ⟨h1, h2⟩ := Prod.mk.inj hsums
  have hreduced : Reduced t := by rw [Reduced, h1, h2]; decide
  obtain ⟨u, hupdates, habs, hinu⟩ := runSteps_update_events hparts hreduced hint
  obtain ⟨v, hfinalize, hinv, hrespv⟩ := step_finalize_event hinu
  refine ⟨v, runSteps_succ_of_step hreset (runSteps_succ_of_last hupdates hfinalize), hinv, ?_⟩
  rw [hrespv, habs.responses, hrespt, finalizePayload_eq_sums, habs.sums, hsums, List.replicate_succ,
    List.append_assoc s.responses]
  rfl

/-- Settles O44. -/
theorem idleStepChangesNothing : Obligations.IdleStepChangesNothing := fun _ => step_idle

end Sys2Proof.Machine
end
